-- ==== Sys2Proof/Word.lean ====
section
/-! DEFINITION. The bit vectors of the spec: the byte of the wire (rule R7), the 24-bit Address of
`ADDR_BITS` (rule R6) and the 32-bit word of the host port (rule R61). Everything is unsigned (rule R7). -/

namespace Sys2Proof

/-- A byte of the wire, unsigned, 0..255 (rule R7). -/
abbrev Byte := BitVec 8

/-- An ECU memory Address, 24 bits (rules R6 and R11). -/
abbrev Address := BitVec 24

/-- A 32-bit word of the register space (rule R60). -/
abbrev Word := BitVec 32

end Sys2Proof
end

