-- ==== Sys2Proof/Config.lean ====
section
/-! DEFINITION. What is fixed for the block (the parameters of rule R6), and the free values: the
environment's answers, which are draws under no law but their shapes (rule R182). -/

namespace Sys2Proof

/-- `START_BYTE`, the first byte of every packet (rule R6). -/
abbrev Config.startByte : Byte := 0x80
/-- `COUNT_MIN` (rule R6). -/
@[simp] abbrev Config.countMin : Nat := 1
/-- `COUNT_MAX` (rule R6). -/
@[simp] abbrev Config.countMax : Nat := 256
/-- `MAX_CDATA`, the most data bytes a one-byte dataLength can say (rules R6, R85). -/
@[simp] abbrev Config.maxCdata : Nat := 255
/-- `MAX_ADDRS`, the largest n with 2 + 3n ≤ 255 (rule R6). -/
@[simp] abbrev Config.maxAddrs : Nat := 84
/-- `MAX_WVALS`, the largest m with 4 + m ≤ 255 (rule R6). -/
@[simp] abbrev Config.maxWvals : Nat := 251
/-- `MAX_TX`, 5 + `MAX_CDATA` (rule R6). -/
@[simp] abbrev Config.maxTx : Nat := 260
/-- `MAX_REPLY`, the largest packet (rule R6, decision D20). -/
@[simp] abbrev Config.maxReply : Nat := 260
/-- `MAX_RX`, `MAX_TX` + `MAX_REPLY` (rule R6). -/
@[simp] abbrev Config.maxRx : Nat := 520
/-- `RESET_DST`, the ECU (rule R6). -/
abbrev Config.resetDst : Byte := 0x10
/-- `RESET_SRC`, the diagnostic tool (rule R6). -/
abbrev Config.resetSrc : Byte := 0xF0
/-- `OFFSET_CONST`, read by the pseudo-operation POLL.NEXT only (rules R6, R98). -/
@[simp] abbrev Config.offsetConst : Nat := 6
/-- The default of the transport's `BAUD` (rule R6). -/
@[simp] abbrev Config.defaultBaud : Nat := 4800

/-- `BAUD`, OPEN: the transport's, read by no rule of the block (rules R6, R252). DESIGN CHOICE, log 13. -/
opaque Config.baud : Nat
/-- `READ_TIMEOUT`, OPEN: the transport's; the block never sees time (rules R6, R220). DESIGN CHOICE, log 13. -/
opaque Config.readTimeout : Nat

/-- The environment's answer to `TransportWrite(s)` (rule R182). -/
inductive WriteAnswer where
  /-- All of `s` reached the wire. -/
  | ok
  /-- `IOError`: the first `sent` bytes of `s` reached the wire (all of it, where `sent` exceeds its length). -/
  | ioError (sent : Nat)
  deriving DecidableEq, Repr, Inhabited

/-- The environment's answer to `TransportRead(need)` (rule R182). -/
inductive ReadAnswer where
  /-- The read failed. -/
  | ioError
  /-- What the transport has to give: the block gets its first `need` bytes, and fewer than `need` means a timeout. -/
  | bytes (b : List Byte)
  deriving DecidableEq, Repr, Inhabited

/-- The free answer to a drawn `TransportWrite` (rule R182), the `k`-th draw, `log` on the wire so far and
`bs` handed over: nothing constrains it. DESIGN CHOICE, log 4. -/
opaque Config.drawWrite (k : Nat) (log bs : List Byte) : WriteAnswer

/-- The free answer to a drawn `TransportRead` (rule R182), the `k`-th draw, `log` on the wire so far and
`need` bytes asked for: nothing constrains it. DESIGN CHOICE, log 4. -/
opaque Config.drawRead (k : Nat) (log : List Byte) (need : Nat) : ReadAnswer

end Sys2Proof
end

