-- ==== Sys2Proof/Syntax.lean ====
section
/-! DEFINITION. The instructions: one constructor of `Instr` for every row of spec/opcode_table.json.
Twelve rows are the operation words a host writes to CMD (rule R81). Six are wire encodings: the five
command-data layouts (rule R86) and the packet (rule R84), which the host has the block build by the lines
of rules R90 to R94 (log 1). -/

namespace Sys2Proof

/-- The five SSM2 commands with the operands their data bytes carry (rule R86). -/
inductive Command where
  /-- ReadBlock: the Address, and `byteCount - 1` as its last data byte holds it. -/
  | readBlock (a : Address) (n : Byte)
  /-- ReadSingleAddresses: the ordered list of addresses. -/
  | readSingleAddresses (as : List Address)
  /-- WriteBlock: the Address and the value bytes, verbatim. -/
  | writeBlock (a : Address) (vs : List Byte)
  /-- WriteSingleAddress: the Address and the value. -/
  | writeSingleAddress (a : Address) (v : Byte)
  /-- InitRequest: no operand. -/
  | initRequest
  deriving DecidableEq, Repr

/-- One constructor per row of spec/opcode_table.json. -/
inductive Instr where
  /-- NOP (rule R186). -/
  | nop
  /-- FRAME (rule R110). -/
  | frame
  /-- ENC.RDBLK (rule R131). -/
  | encRdblk
  /-- ENC.RDADDR (rule R132). -/
  | encRdaddr
  /-- ENC.WRBLK (rule R133). -/
  | encWrblk
  /-- ENC.WRADDR (rule R134). -/
  | encWraddr
  /-- ENC.INIT (rule R135). -/
  | encInit
  /-- PARSE (rule R160). -/
  | parse
  /-- VERIFY.RX (rule R165). -/
  | verifyRx
  /-- VERIFY.TX (rule R166). -/
  | verifyTx
  /-- SEND (rule R180). -/
  | send
  /-- RECV (rule R181). -/
  | recv
  /-- SSM2.ReadBlock, the wire command 0xA0 (rules R86, R131). -/
  | ssm2ReadBlock (a : Address) (n : Byte)
  /-- SSM2.ReadSingleAddresses, the wire command 0xA8 (rules R86, R132). -/
  | ssm2ReadSingleAddresses (as : List Address)
  /-- SSM2.WriteBlock, the wire command 0xB0 (rules R86, R133). -/
  | ssm2WriteBlock (a : Address) (vs : List Byte)
  /-- SSM2.WriteSingleAddress, the wire command 0xB8 (rules R86, R134). -/
  | ssm2WriteSingleAddress (a : Address) (v : Byte)
  /-- SSM2.InitRequest, the wire command 0xBF (rules R86, R135). -/
  | ssm2InitRequest
  /-- SSM2.Packet (rules R84, R110): destination, source and the command its data bytes are;
  `none` is the packet whose dataLength is 0. -/
  | ssm2Packet (d s : Byte) (c : Option Command)
  deriving DecidableEq, Repr

/-- What an instruction is encoded as: the word of a host write to CMD (rule R80), or a byte sequence
in wire order (rules R84, R86). -/
inductive Code where
  | opWord (w : Word)
  | wire (bs : List Byte)
  deriving DecidableEq, Repr

end Sys2Proof
end

