-- ==== Sys2Proof/WellFormed.lean ====
section
/-! DEFINITION. The operand limits of rule R86: which instructions an encoding exists for. -/

namespace Sys2Proof

/-- The operand limits of the five command layouts (rule R86). -/
def Command.wf : Command → Bool
  | .readBlock _ _ => true
  | .readSingleAddresses as => decide (1 ≤ as.length ∧ as.length ≤ Config.maxAddrs)
  | .writeBlock _ vs => decide (1 ≤ vs.length ∧ vs.length ≤ Config.maxWvals)
  | .writeSingleAddress _ _ => true
  | .initRequest => true

/-- The instructions that have an encoding (rules R81, R84, R86). -/
def Instr.wf : Instr → Bool
  | .nop | .frame | .encRdblk | .encRdaddr | .encWrblk | .encWraddr | .encInit => true
  | .parse | .verifyRx | .verifyTx | .send | .recv => true
  | .ssm2ReadBlock a n => (Command.readBlock a n).wf
  | .ssm2ReadSingleAddresses as => (Command.readSingleAddresses as).wf
  | .ssm2WriteBlock a vs => (Command.writeBlock a vs).wf
  | .ssm2WriteSingleAddress a v => (Command.writeSingleAddress a v).wf
  | .ssm2InitRequest => Command.initRequest.wf
  | .ssm2Packet _ _ none => true
  | .ssm2Packet _ _ (some c) => c.wf

end Sys2Proof
end

