-- ==== Sys2Proof/Decode.lean ====
section
/-! DEFINITION. The decoder, total on every 32-bit operation word (rule R82) and on every byte sequence
(rules R84 and R86), rejecting by name; the encoder after it, from the same tables; and the table-word
reader the host asks with. -/

namespace Sys2Proof

/-- Why a code is no instruction. -/
inductive DecodeError where
  /-- An operation word outside the twelve of rule R81 (rules R82, R83). -/
  | illegalOperation
  /-- No byte at all. -/
  | emptyCode
  /-- A first byte that is neither 0x80 nor one of the five command bytes (rule R88). -/
  | unknownFirstByte
  /-- A pad byte other than the one the layout fixes (rule R86). -/
  | badPad
  /-- A length the layout does not have, or an operand count outside its limits (rule R86). -/
  | badLength
  /-- A checksum byte that is not `sum8` of the bytes before it (rule R84). -/
  | badChecksum
  deriving DecidableEq, Repr

/-! The byte-level helpers of the wire. -/

/-- `sum8(s)`: the sum of the bytes modulo 256, 0 for the empty sequence (rules R8, R112). -/
def sum8 : List Byte → Byte
  | [] => 0
  | b :: bs => b + sum8 bs

/-- `be24(a)`: the three bytes of an Address, most significant first (rules R68, R130). -/
def be24 (a : Address) : List Byte :=
  [a.extractLsb' 16 8, a.extractLsb' 8 8, a.extractLsb' 0 8]

/-- The Address whose bytes are `h`, `m`, `l`, most significant first (rule R130 read backwards). -/
def ofBe24 (h m l : Byte) : Address := h ++ m ++ l

/-! The operation word (rules R80 to R83). -/

/-- The operation rule R81 gives for the low five bits of a word; `none` for the others. -/
def decodeOpBits (n : Nat) : Option Instr :=
  match n with
  | 0x00 => some .nop
  | 0x01 => some .frame
  | 0x02 => some .encRdblk
  | 0x03 => some .encRdaddr
  | 0x04 => some .encWrblk
  | 0x05 => some .encWraddr
  | 0x06 => some .encInit
  | 0x07 => some .parse
  | 0x08 => some .verifyRx
  | 0x18 => some .verifyTx
  | 0x09 => some .send
  | 0x0A => some .recv
  | _ => none

/-- The operation word's decoder: reserved bits [31:5] must be 0, and the low five bits must be one of
the rows of rule R81 (rule R82). -/
def decodeOp (w : Word) : Except DecodeError Instr :=
  if w.extractLsb' 5 27 = 0 then
    match decodeOpBits (w.extractLsb' 0 5).toNat with
    | some i => .ok i
    | none => .error .illegalOperation
  else .error .illegalOperation

/-! The command data (rule R86). -/

/-- The addresses of a ReadSingleAddresses body, three bytes each (rule R86). -/
def decodeAddresses : List Byte → Option (List Address)
  | [] => some []
  | h :: m :: l :: rest =>
    match decodeAddresses rest with
    | some as => some (ofBe24 h m l :: as)
    | none => none
  | _ => none

/-- ReadBlock after its command byte: pad 0x00, Address, `byteCount - 1` (rule R86). -/
def decodeReadBlock : List Byte → Except DecodeError Command
  | [pad, h, m, l, n] => if pad = 0x00 then .ok (.readBlock (ofBe24 h m l) n) else .error .badPad
  | _ => .error .badLength

/-- ReadSingleAddresses after its command byte: pad 0x01, then 1 to 84 addresses (rule R86). -/
def decodeReadSingleAddresses : List Byte → Except DecodeError Command
  | [] => .error .badLength
  | pad :: body =>
    if pad = 0x01 then
      match decodeAddresses body with
      | some as => if (Command.readSingleAddresses as).wf then .ok (.readSingleAddresses as) else .error .badLength
      | none => .error .badLength
    else .error .badPad

/-- WriteBlock after its command byte: Address, then 1 to 251 values (rule R86). -/
def decodeWriteBlock : List Byte → Except DecodeError Command
  | h :: m :: l :: vs =>
    if (Command.writeBlock (ofBe24 h m l) vs).wf then .ok (.writeBlock (ofBe24 h m l) vs) else .error .badLength
  | _ => .error .badLength

/-- WriteSingleAddress after its command byte: Address, value (rule R86). -/
def decodeWriteSingleAddress : List Byte → Except DecodeError Command
  | [h, m, l, v] => .ok (.writeSingleAddress (ofBe24 h m l) v)
  | _ => .error .badLength

/-- InitRequest after its command byte: nothing (rule R86). -/
def decodeInitRequest : List Byte → Except DecodeError Command
  | [] => .ok .initRequest
  | _ => .error .badLength

/-- The command whose data bytes these are, all of them (rule R86). -/
def decodeCommand : List Byte → Except DecodeError Command
  | [] => .error .emptyCode
  | op :: rest =>
    if op = 0xA0 then decodeReadBlock rest
    else if op = 0xA8 then decodeReadSingleAddresses rest
    else if op = 0xB0 then decodeWriteBlock rest
    else if op = 0xB8 then decodeWriteSingleAddress rest
    else if op = 0xBF then decodeInitRequest rest
    else .error .unknownFirstByte

/-! The packet (rule R84). -/

/-- The data part of a packet: no byte at all (dataLength 0), or a command. -/
def decodePacketData (data : List Byte) : Except DecodeError (Option Command) :=
  match data with
  | [] => .ok none
  | _ :: _ =>
    match decodeCommand data with
    | .ok c => .ok (some c)
    | .error e => .error e

/-- A packet after its start byte: destination, source, dataLength, that many data bytes, checksum (rule R84). -/
def decodePacket : List Byte → Except DecodeError Instr
  | d :: s :: len :: rest =>
    if rest.length = len.toNat + 1 then
      if rest.drop len.toNat = [sum8 (Config.startByte :: d :: s :: len :: rest.take len.toNat)] then
        match decodePacketData (rest.take len.toNat) with
        | .ok c => .ok (.ssm2Packet d s c)
        | .error e => .error e
      else .error .badChecksum
    else .error .badLength
  | _ => .error .badLength

/-- The instruction of a wire command. -/
def Command.instr : Command → Instr
  | .readBlock a n => .ssm2ReadBlock a n
  | .readSingleAddresses as => .ssm2ReadSingleAddresses as
  | .writeBlock a vs => .ssm2WriteBlock a vs
  | .writeSingleAddress a v => .ssm2WriteSingleAddress a v
  | .initRequest => .ssm2InitRequest

/-- The wire row a byte sequence is, all of it: a packet by its start byte, else a command. -/
def decodeWire : List Byte → Except DecodeError Instr
  | [] => .error .emptyCode
  | b :: rest =>
    if b = Config.startByte then decodePacket rest
    else
      match decodeCommand (b :: rest) with
      | .ok c => .ok c.instr
      | .error e => .error e

/-- The decoder, total on every code (rules R82, R84, R86). -/
def decode : Code → Except DecodeError Instr
  | .opWord w => decodeOp w
  | .wire bs => decodeWire bs

/-! The encoder, from the same tables. -/

/-- The data bytes of a command, the layouts of rule R86. -/
def encodeCommand : Command → List Byte
  | .readBlock a n => [0xA0, 0x00] ++ be24 a ++ [n]
  | .readSingleAddresses as => [0xA8, 0x01] ++ as.flatMap be24
  | .writeBlock a vs => [0xB0] ++ be24 a ++ vs
  | .writeSingleAddress a v => [0xB8] ++ be24 a ++ [v]
  | .initRequest => [0xBF]

/-- The packet around some data bytes: header, data, checksum (rule R84). -/
def packetOf (d s : Byte) (data : List Byte) : List Byte :=
  let body := [Config.startByte, d, s, BitVec.ofNat 8 data.length] ++ data
  body ++ [sum8 body]

/-- The data bytes of a packet that carries this command, or none. -/
def packetData : Option Command → List Byte
  | none => []
  | some c => encodeCommand c

/-- The code of an instruction: the operation words of rule R81, the layouts of rules R84 and R86. -/
def encode : Instr → Code
  | .nop => .opWord 0x00000000
  | .frame => .opWord 0x00000001
  | .encRdblk => .opWord 0x00000002
  | .encRdaddr => .opWord 0x00000003
  | .encWrblk => .opWord 0x00000004
  | .encWraddr => .opWord 0x00000005
  | .encInit => .opWord 0x00000006
  | .parse => .opWord 0x00000007
  | .verifyRx => .opWord 0x00000008
  | .verifyTx => .opWord 0x00000018
  | .send => .opWord 0x00000009
  | .recv => .opWord 0x0000000A
  | .ssm2ReadBlock a n => .wire (encodeCommand (.readBlock a n))
  | .ssm2ReadSingleAddresses as => .wire (encodeCommand (.readSingleAddresses as))
  | .ssm2WriteBlock a vs => .wire (encodeCommand (.writeBlock a vs))
  | .ssm2WriteSingleAddress a v => .wire (encodeCommand (.writeSingleAddress a v))
  | .ssm2InitRequest => .wire (encodeCommand .initRequest)
  | .ssm2Packet d s c => .wire (packetOf d s (packetData c))

/-! Table words: the numbering of spec/opcode_table.json. -/

/-- The first `k` bytes of a number, least significant first: the bytes of a wire row in wire order. -/
def bytesOfNat : Nat → Nat → List Byte
  | 0, _ => []
  | k + 1, w => BitVec.ofNat 8 w :: bytesOfNat k (w / 256)

/-- `bs` with zero bytes after it up to length `n`. -/
def padTo (n : Nat) (bs : List Byte) : List Byte := bs ++ List.replicate (n - bs.length) 0

/-- The first bytes of a wire row made a whole code, operand bytes 0: the bytes its layout fixes are
the fixed ones (the pad byte 0x01 of ReadSingleAddresses), the checksum byte is the one rule R84 gives,
and of the lengths the layout has the shortest is taken. DESIGN CHOICE, log 2. -/
def completeWire : List Byte → List Byte
  | [] => []
  | b :: t =>
    if b = 0xA0 then padTo 6 (b :: t)
    else if b = 0xA8 then
      match t with
      | [] => [b, 0x01, 0, 0, 0]
      | p :: body => b :: p :: padTo (3 * max 1 ((body.length + 2) / 3)) body
    else if b = 0xB0 then padTo 5 (b :: t)
    else if b = 0xB8 then padTo 5 (b :: t)
    else if b = Config.startByte then
      let whole := padTo (4 + ((padTo 4 (b :: t)).getD 3 0).toNat) (padTo 4 (b :: t))
      if whole.length = 4 + (whole.getD 3 0).toNat then whole ++ [sum8 whole] else whole
    else b :: t

/-- The code of a table row's word: 32 bits is an operation word, fewer or more are wire bytes. -/
def tableCode (nbits w : Nat) : Code :=
  if nbits = 32 then .opWord (BitVec.ofNat 32 w) else .wire (completeWire (bytesOfNat (nbits / 8) w))

/-- The instruction the decoder reads from a table row's word. -/
def decodeTableWord (nbits w : Nat) : Option Instr :=
  match decode (tableCode nbits w) with
  | .ok i => some i
  | .error _ => none

end Sys2Proof
end

