-- ==== Sys2Proof/Machine/State.lean ====
section
/-! DEFINITION. The state of the machine: the registers of rule R21, the storage of the buffers of rule
R29, the wire's log of rule R38, and, as the model's own, the environment's coming answers and the host
agent that makes the accesses (rule R5). -/

namespace Sys2Proof.Machine

/-- The error codes of STATUS.ERR (rule R210). Codes 9 to 15 are never written and have no constructor. -/
inductive Err where
  | ok | invalidArgument | truncatedFrame | noResponse | checksumMismatch
  | handshakeFailed | transportError | illegalOperation | sequenceError
  deriving DecidableEq, Repr

/-- The sixteen registers of rule R21. -/
inductive Reg where
  | cmd | status | dst | src | addr | count | value | naddr
  | nval | reqlen | replen | cdlen | txlen | echolen | rxcount | rplen
  deriving DecidableEq, Repr

/-- The six buffers of rule R29. -/
inductive Buf where
  | alist | wval | cdata | txbuf | rxraw | reply
  deriving DecidableEq, Repr

/-- A mapped word of the register space: a register, or element `i` of a buffer (rule R60). -/
inductive Loc where
  | reg (r : Reg)
  | elem (b : Buf) (i : Nat)
  deriving DecidableEq, Repr

/-- The host access a register or buffer admits (rules R21, R29). -/
inductive Access where
  | readOnly | readWrite | writeOnly
  deriving DecidableEq, Repr

/-- The storage of the buffers: bytes keyed by their offset in the register space, offsets strictly
rising, no zero byte listed (an unlisted byte is 0, the reset value of rules R29 and R240). Log 9. -/
abbrev Memory := List Host.Cell

/-- What a host control-flow line does (rule R89). -/
inductive Act where
  /-- `end`: the host program stops. -/
  | stop
  /-- `goto L`. -/
  | goto (l : Nat)
  /-- The `end` inside a pseudo-operation's expansion: its remaining `k` lines are passed over. -/
  | skip (k : Nat)
  deriving DecidableEq, Repr

/-- One line of a host program (rule R89), or a thing the outside does between two host accesses. Log 3. -/
inductive Line where
  /-- `MemRead(off, width)`, width in bytes. An offset above 0xFFFF is unmapped (log 19). -/
  | rd (off : Nat) (width : Nat)
  /-- `MemWrite(off, width, w)`, width in bytes. -/
  | wr (off : Nat) (width : Nat) (w : Word)
  /-- The reset input, asserted between host accesses (rule R240). -/
  | reset
  /-- A pseudo-operation: the host lines that have the block build this wire row (log 1). -/
  | wire (bs : List Byte)
  /-- `L:` -/
  | label (l : Nat)
  /-- `goto L` or `end`. -/
  | jump (a : Act)
  /-- `if ERR != 0: a` (`nonzero = true`) or `if ERR = 0: a`. -/
  | ifErr (nonzero : Bool) (a : Act)
  deriving DecidableEq, Repr

/-- The host, the agent whose accesses the block answers (rules R5, R89). -/
structure HostAgent where
  /-- The whole program, in which a `goto` finds its label. -/
  prog : List Line
  /-- The lines still to run, the next one first. -/
  pending : List Line
  /-- The value the last `rd STATUS` returned. -/
  status : Word
  /-- The value the last admitted host read returned. -/
  readData : Word
  deriving DecidableEq, Repr

/-- The environment's coming answers (rules R38, R182): first the scripted ones, then free draws. Log 4. -/
structure Env where
  writes : List WriteAnswer
  reads : List ReadAnswer
  /-- How many free draws were taken. -/
  draws : Nat
  deriving DecidableEq, Repr

/-- Host accesses that are not admitted: the host is stuck (rules R62, R216). Raised by the host port,
Machine/Port.lean. Each is SAFE: the model stops where no rule says what the hardware does. -/
inductive Fault where
  /-- A width other than 4 bytes. Raised by `checkAccess`; safe. -/
  | accessWidth
  /-- An offset that is no multiple of 4. Raised by `checkAccess`; safe. -/
  | misaligned
  /-- An offset outside the mapped words. Raised by `checkAccess`; safe. -/
  | unmapped
  /-- A read of CMD. Raised by `checkRead`; safe. -/
  | readOfCmd
  /-- A write to a register or buffer whose host access is R. Raised by `checkWrite`; safe. -/
  | writeToReadOnly
  deriving DecidableEq, Repr

/-- Why the model would give a step no meaning. No step is refused (rule R216). -/
inductive Refusal where
  /-- An instruction without a meaning. Raised by nothing, since every arm of `exec` has its meaning; safe. -/
  | notModelled (mnemonic : String)
  deriving DecidableEq, Repr

/-- The state: registers in the order of rule R21 (STATUS by its stored fields, rule R23; CMD is not
stored), the buffers' storage, the wire's log, the environment and the host. -/
@[ext]
structure State where
  /-- STATUS.ERR. -/
  err : Err
  /-- STATUS.CSUM_OK. -/
  csumOk : Bool
  dst : Byte
  src : Byte
  addr : Address
  count : BitVec 9
  value : Byte
  naddr : BitVec 7
  nval : BitVec 8
  reqlen : BitVec 10
  replen : BitVec 9
  cdlen : BitVec 8
  txlen : BitVec 9
  echolen : BitVec 9
  rxcount : BitVec 10
  rplen : BitVec 10
  /-- ALIST, WVAL, CDATA, TXBUF, RXRAW and REPLY (rule R29). -/
  mem : Memory
  /-- `TXLOG`: every byte handed to the wire, oldest first (rule R38). -/
  txlog : List Byte
  env : Env
  host : HostAgent
  deriving DecidableEq, Repr

/-- The machine right after reset: rule R240 gives every register and buffer element; the wire's log is
empty and the model's own fields are as log 8 says. -/
def State.reset : State where
  err := .ok
  csumOk := false
  dst := Config.resetDst
  src := Config.resetSrc
  addr := 0
  count := 0
  value := 0
  naddr := 0
  nval := 0
  reqlen := 0
  replen := 0
  cdlen := 0
  txlen := 0
  echolen := 0
  rxcount := 0
  rplen := 0
  mem := []
  txlog := []
  env := { writes := [], reads := [], draws := 0 }
  host := { prog := [], pending := [], status := 0, readData := 0 }

/-- What the host's next line comes to: a step that is done, an instruction to run, or a stop. -/
inductive Fetched where
  | done (s : State)
  | issue (i : Instr) (s : State)
  | fault (f : Fault)
  deriving Repr

end Sys2Proof.Machine
end

