-- ==== Sys2Proof/Machine/Ops.lean ====
section
/-! DEFINITION. The shared operations: the map of the register space, the buffers' storage, ending an
operation with or without an error (the block's only 'exception', rules R9 and R213), the two transport
primitives (rule R182), and reset (rule R240). -/

namespace Sys2Proof.Machine

/-! The map of the register space (rules R21, R29, R60). -/

/-- The byte offset of a register (rule R21). -/
def Reg.offset : Reg → Nat
  | .cmd => 0x000 | .status => 0x004 | .dst => 0x008 | .src => 0x00C
  | .addr => 0x010 | .count => 0x014 | .value => 0x018 | .naddr => 0x01C
  | .nval => 0x020 | .reqlen => 0x024 | .replen => 0x028 | .cdlen => 0x02C
  | .txlen => 0x030 | .echolen => 0x034 | .rxcount => 0x038 | .rplen => 0x03C

/-- The stored width of a register in bits; CMD is not stored (rule R21). -/
def Reg.width : Reg → Nat
  | .cmd => 0
  | .status => 6
  | .naddr => 7
  | .dst | .src | .value | .nval | .cdlen => 8
  | .count | .replen | .txlen | .echolen => 9
  | .reqlen | .rxcount | .rplen => 10
  | .addr => 24

/-- The host access of a register (rule R21). -/
def Reg.access : Reg → Access
  | .cmd => .writeOnly
  | .status | .cdlen | .txlen | .echolen | .rplen => .readOnly
  | .dst | .src | .addr | .count | .value | .naddr | .nval | .reqlen | .replen | .rxcount => .readWrite

/-- The base offset of a buffer (rule R29). -/
def Buf.base : Buf → Nat
  | .alist => 0x0100 | .wval => 0x0400 | .cdata => 0x0800
  | .txbuf => 0x0C00 | .rxraw => 0x1400 | .reply => 0x2400

/-- The number of elements of a buffer (rule R29). -/
def Buf.size : Buf → Nat
  | .alist => Config.maxAddrs | .wval => Config.maxWvals | .cdata => Config.maxCdata
  | .txbuf => Config.maxTx | .rxraw => Config.maxRx | .reply => Config.maxRx

/-- The number of bytes a buffer's element holds: 3 in ALIST, 1 elsewhere (rule R29). -/
def Buf.elemBytes : Buf → Nat
  | .alist => 3
  | .wval | .cdata | .txbuf | .rxraw | .reply => 1

/-- The host access of a buffer (rule R29). -/
def Buf.access : Buf → Access
  | .alist | .wval | .rxraw => .readWrite
  | .cdata | .txbuf | .reply => .readOnly

/-- Element `i` of a buffer is at offset `B + 4*i` (rule R29). -/
def Buf.elemAddr (b : Buf) (i : Nat) : Nat := b.base + 4 * i

/-- The six buffers. -/
def Buf.all : List Buf := [.alist, .wval, .cdata, .txbuf, .rxraw, .reply]

/-- The sixteen registers, in the order of their offsets. -/
def Reg.all : List Reg :=
  [.cmd, .status, .dst, .src, .addr, .count, .value, .naddr,
   .nval, .reqlen, .replen, .cdlen, .txlen, .echolen, .rxcount, .rplen]

/-- The element of buffer `b` at an offset, if it has one there. -/
def Buf.elemAt (b : Buf) (off : Nat) : Option Loc :=
  if b.base ≤ off ∧ off < b.elemAddr b.size then some (.elem b ((off - b.base) / 4)) else none

/-- The mapped word at a word-aligned offset (rule R60); `none` where nothing is mapped. -/
def locate (off : Nat) : Option Loc :=
  match Reg.all.find? (fun r => r.offset == off) with
  | some r => some (.reg r)
  | none => Buf.all.findSome? (fun b => b.elemAt off)

/-- A byte offset that stores one of the bytes of an element of buffer `b`. -/
def Buf.stores (b : Buf) (k : Nat) : Bool :=
  decide (b.base ≤ k ∧ k < b.elemAddr b.size ∧ (k - b.base) % 4 < b.elemBytes)

/-- The offsets at which the buffers store a byte (rule R60); no other is ever listed. -/
def Memory.mapped (k : Nat) : Bool := Buf.all.any (fun b => b.stores k)

/-! The storage of the buffers (rules R29, R61). -/

/-- The canonical form: offsets strictly rising, no zero byte listed. -/
def Memory.wf : Memory → Bool
  | [] => true
  | (k, v) :: m => v != 0 && m.all (fun c => decide (k < c.1)) && Memory.wf m

/-- The byte at an offset; one that is not listed is 0 (rules R29, R240). -/
def Memory.read : Memory → Nat → Byte
  | [], _ => 0
  | (a, b) :: m, k => if k = a then b else Memory.read m k

/-- Storing a byte, the canonical form kept: storing 0 leaves nothing listed. -/
def Memory.write : Memory → Nat → Byte → Memory
  | [], k, v => if v = 0 then [] else [(k, v)]
  | (a, b) :: m, k, v =>
    if k < a then (if v = 0 then (a, b) :: m else (k, v) :: (a, b) :: m)
    else if k = a then (if v = 0 then m else (a, v) :: m)
    else (a, b) :: Memory.write m k v

/-- Storing a byte sequence in consecutive elements, the first at offset `k` (rules R8, R29). -/
def Memory.store : Memory → Nat → List Byte → Memory
  | m, _, [] => m
  | m, k, b :: bs => Memory.store (m.write k b) (k + 4) bs

/-- `n` consecutive one-byte elements, the first at offset `k` (rules R8, R29). -/
def Memory.load (m : Memory) : Nat → Nat → List Byte
  | _, 0 => []
  | k, n + 1 => m.read k :: Memory.load m (k + 4) n

/-- A 24-bit element: bits [7:0] at `k`, [15:8] at `k+1`, [23:16] at `k+2` (log 9; nothing can see that order). -/
def Memory.readAddress (m : Memory) (k : Nat) : Address :=
  ofBe24 (m.read (k + 2)) (m.read (k + 1)) (m.read k)

/-- Storing a 24-bit element. -/
def Memory.writeAddress (m : Memory) (k : Nat) (a : Address) : Memory :=
  ((m.write k (a.extractLsb' 0 8)).write (k + 1) (a.extractLsb' 8 8)).write (k + 2) (a.extractLsb' 16 8)

/-- `n` consecutive 24-bit elements, the first at offset `k`. -/
def Memory.loadAddresses (m : Memory) : Nat → Nat → List Address
  | _, 0 => []
  | k, n + 1 => m.readAddress k :: Memory.loadAddresses m (k + 4) n

/-- Storing 24-bit elements, the first at offset `k`. -/
def Memory.storeAddresses : Memory → Nat → List Address → Memory
  | m, _, [] => m
  | m, k, a :: as => Memory.storeAddresses (m.writeAddress k a) (k + 4) as

/-- Store bytes in the first elements of a buffer: `BUF[0:len(bs)] <- bs` (rule R9). -/
def storeIn (b : Buf) (bs : List Byte) (s : State) : State := { s with mem := s.mem.store b.base bs }

/-! Ending an operation (rules R9, R24, R213). -/

/-- `raise E`: STATUS.ERR takes the code; the operation ends (rule R9). An error is not a trap: no state
is saved, no mode changes, no control is transferred (rule R213). -/
def raise (e : Err) (s : State) : State := { s with err := e }

/-- `finish`: STATUS.ERR becomes OK; the operation ends (rule R9). -/
def finish (s : State) : State := { s with err := .ok }

/-! The transport primitives (rule R182). -/

/-- The environment's answer to `TransportWrite(bs)`: the script's next, else a free draw. -/
def nextWrite (bs : List Byte) (s : State) : WriteAnswer :=
  match s.env.writes with
  | a :: _ => a
  | [] => Config.drawWrite s.env.draws s.txlog bs

/-- The environment after it has answered a `TransportWrite`. -/
def Env.afterWrite (e : Env) : Env :=
  match e.writes with
  | _ :: rest => { e with writes := rest }
  | [] => { e with draws := e.draws + 1 }

/-- What reaches the wire of the bytes `bs` under an answer: all of them, or some prefix (rule R182). -/
def sentBytes (bs : List Byte) : WriteAnswer → List Byte
  | .ok => bs
  | .ioError n => bs.take n

/-- The state after `TransportWrite(bs)`: the environment has answered, the log has grown (rule R182). -/
def afterWrite (bs : List Byte) (s : State) : State :=
  { s with env := s.env.afterWrite, txlog := s.txlog ++ sentBytes bs (nextWrite bs s) }

/-- An answer cut to the shape rule R182 gives it: at most `need` bytes (rule R188: it takes no more). -/
def ReadAnswer.cut (need : Nat) : ReadAnswer → ReadAnswer
  | .ioError => .ioError
  | .bytes b => .bytes (b.take need)

/-- The environment's answer to `TransportRead(need)`: the script's next, else a free draw, at most `need` bytes. -/
def nextRead (need : Nat) (s : State) : ReadAnswer :=
  match s.env.reads with
  | a :: _ => ReadAnswer.cut need a
  | [] => ReadAnswer.cut need (Config.drawRead s.env.draws s.txlog need)

/-- The environment after it has answered a `TransportRead`. -/
def Env.afterRead (e : Env) : Env :=
  match e.reads with
  | _ :: rest => { e with reads := rest }
  | [] => { e with draws := e.draws + 1 }

/-- The state after a `TransportRead`: the environment has answered. -/
def afterRead (s : State) : State := { s with env := s.env.afterRead }

/-! Reset (rules R240, R241). -/

/-- The reset input: every register and buffer element takes its reset value; the environment, the
wire's log and the host are not touched. -/
def blockReset (s : State) : State :=
  { State.reset with txlog := s.txlog, env := s.env, host := s.host }

end Sys2Proof.Machine
end

