-- ==== Sys2Proof/Machine/Operands.lean ====
section
/-! DEFINITION. The operand forms: the sequences an operation reads from a buffer and its length
register (rules R30 to R35). -/

namespace Sys2Proof.Machine

/-- `CDATA[0:CDLEN]`, the command data (rule R30). -/
def State.command (s : State) : List Byte := s.mem.load Buf.cdata.base s.cdlen.toNat

/-- `TXBUF[0:TXLEN]`, the packet (rule R31). -/
def State.packet (s : State) : List Byte := s.mem.load Buf.txbuf.base s.txlen.toNat

/-- `RXRAW[0:RXCOUNT]`, the raw response (rule R33). -/
def State.raw (s : State) : List Byte := s.mem.load Buf.rxraw.base s.rxcount.toNat

/-- `REPLY[0:RPLEN]`, the reply (rule R34). -/
def State.replyBytes (s : State) : List Byte := s.mem.load Buf.reply.base s.rplen.toNat

/-- `ALIST[0:NADDR]`, the address list (rule R35). -/
def State.addresses (s : State) : List Address := s.mem.loadAddresses Buf.alist.base s.naddr.toNat

/-- `WVAL[0:NVAL]`, the value bytes (rule R35). -/
def State.values (s : State) : List Byte := s.mem.load Buf.wval.base s.nval.toNat

end Sys2Proof.Machine
end

