-- ==== Sys2Proof/Machine/Flags.lean ====
section
/-! DEFINITION. The flag computations: the error codes of STATUS.ERR (rule R210), STATUS as the host
reads it (rules R23, R26), and the checksum predicate behind STATUS.CSUM_OK (rule R113). -/

namespace Sys2Proof.Machine

/-- The code of an error kind (rule R210). -/
def Err.code : Err → BitVec 4
  | .ok => 0 | .invalidArgument => 1 | .truncatedFrame => 2 | .noResponse => 3 | .checksumMismatch => 4
  | .handshakeFailed => 5 | .transportError => 6 | .illegalOperation => 7 | .sequenceError => 8

/-- `csum_ok(f)`: there is a final byte, and it is the sum of all the others (rule R113). -/
def csumOk (f : List Byte) : Bool :=
  match f.getLast? with
  | none => false
  | some c => sum8 f.dropLast == c

/-- STATUS.LINK: 1 exactly when ECHOLEN ≠ 0; it has no storage of its own (rule R26). -/
def State.link (s : State) : Bool := decide (s.echolen ≠ 0)

/-- STATUS as a host read returns it: ERR in [3:0], CSUM_OK in [4], LINK in [5], 0 above (rule R23). -/
def State.statusWord (s : State) : Word :=
  (0 : BitVec 26) ++ (BitVec.ofBool s.link ++ (BitVec.ofBool s.csumOk ++ s.err.code))

end Sys2Proof.Machine
end

