-- ==== Sys2Proof/Machine/Encoder.lean ====
section
/-! DEFINITION. The five ENC operations (rules R131 to R137). -/

namespace Sys2Proof.Machine

/-- An ENC that succeeds: the data bytes of its command go to CDATA, their number to CDLEN (rules R30, R131 to R135). -/
def encoded (c : Command) (s : State) : State :=
  finish { storeIn .cdata (encodeCommand c) s with cdlen := BitVec.ofNat 8 (encodeCommand c).length }

/-- An ENC that raises InvalidArgument: CDLEN becomes 0, no element of CDATA is written (rule R136). -/
def notEncoded (s : State) : State := raise .invalidArgument { s with cdlen := 0 }

/-- ReadBlock of ADDR and COUNT (rule R131). -/
def encRdblkOp (s : State) : State :=
  if s.count = 0 ∨ Config.countMax < s.count.toNat then notEncoded s
  else encoded (.readBlock s.addr (BitVec.ofNat 8 (s.count.toNat - 1))) s

/-- ReadSingleAddresses of ALIST[0:NADDR] (rule R132). -/
def encRdaddrOp (s : State) : State :=
  if s.naddr = 0 ∨ Config.maxAddrs < s.naddr.toNat then notEncoded s
  else encoded (.readSingleAddresses s.addresses) s

/-- WriteBlock of ADDR and WVAL[0:NVAL] (rule R133). -/
def encWrblkOp (s : State) : State :=
  if s.nval = 0 ∨ Config.maxWvals < s.nval.toNat then notEncoded s
  else encoded (.writeBlock s.addr s.values) s

/-- WriteSingleAddress of ADDR and VALUE (rule R134). -/
def encWraddrOp (s : State) : State := encoded (.writeSingleAddress s.addr s.value) s

/-- InitRequest (rule R135). -/
def encInitOp (s : State) : State := encoded .initRequest s

/-- ENC.RDBLK (rule R131). -/
def execEncRdblk (s : State) : Host.Outcome State Fault Refusal := .next (encRdblkOp s)

/-- ENC.RDADDR (rule R132). -/
def execEncRdaddr (s : State) : Host.Outcome State Fault Refusal := .next (encRdaddrOp s)

/-- ENC.WRBLK (rule R133). -/
def execEncWrblk (s : State) : Host.Outcome State Fault Refusal := .next (encWrblkOp s)

/-- ENC.WRADDR (rule R134). -/
def execEncWraddr (s : State) : Host.Outcome State Fault Refusal := .next (encWraddrOp s)

/-- ENC.INIT (rule R135). -/
def execEncInit (s : State) : Host.Outcome State Fault Refusal := .next (encInitOp s)

end Sys2Proof.Machine
end

