-- ==== Sys2Proof/Machine/Framer.lean ====
section
/-! DEFINITION. FRAME, the packet framer (rules R110, R111). -/

namespace Sys2Proof.Machine

/-- A FRAME that has a command: the packet goes to `TXBUF[0:CDLEN+5]` and its length to TXLEN (rule R110). -/
def framed (s : State) : State :=
  finish { storeIn .txbuf (packetOf s.dst s.src s.command) s with txlen := BitVec.ofNat 9 (s.cdlen.toNat + 5) }

/-- A FRAME with no valid command: TXLEN becomes 0, no element of TXBUF is written (rule R111). -/
def notFramed (s : State) : State := raise .invalidArgument { s with txlen := 0 }

/-- Building a packet from the current command data (rule R110). -/
def frameOp (s : State) : State := if s.cdlen = 0 then notFramed s else framed s

/-- FRAME (rule R110). -/
def execFrame (s : State) : Host.Outcome State Fault Refusal := .next (frameOp s)

end Sys2Proof.Machine
end

