-- ==== Sys2Proof/Machine/Parser.lean ====
section
/-! DEFINITION. PARSE, VERIFY.RX and VERIFY.TX (rules R160, R165, R166). -/

namespace Sys2Proof.Machine

/-- The ending of a PARSE or RECV that raises an error: RPLEN becomes 0, REPLY is not written (rule R34). -/
def noReply (e : Err) (s : State) : State := raise e { s with rplen := 0 }

/-- The ending of a PARSE that succeeds: `REPLY[0:len(bs)] <- bs`, RPLEN their number (rule R160). -/
def replied (bs : List Byte) (s : State) : State :=
  finish { storeIn .reply bs s with rplen := BitVec.ofNat 10 bs.length }

/-- PARSE: strip REQLEN bytes of echo from the raw response (rule R160). -/
def parseOp (s : State) : State :=
  if Config.maxRx < s.rxcount.toNat then noReply .invalidArgument s
  else if s.rxcount.toNat < s.reqlen.toNat then noReply .truncatedFrame s
  else replied (s.raw.drop s.reqlen.toNat) s

/-- VERIFY of a frame: CSUM_OK takes the check's answer, and a failed check is raised (rules R165, R166). -/
def verifyOp (f : List Byte) (s : State) : State :=
  if csumOk f then finish { s with csumOk := true }
  else raise .checksumMismatch { s with csumOk := false }

/-- PARSE (rule R160). -/
def execParse (s : State) : Host.Outcome State Fault Refusal := .next (parseOp s)

/-- VERIFY.RX (rule R165). -/
def execVerifyRx (s : State) : Host.Outcome State Fault Refusal := .next (verifyOp s.replyBytes s)

/-- VERIFY.TX (rule R166). -/
def execVerifyTx (s : State) : Host.Outcome State Fault Refusal := .next (verifyOp s.packet s)

end Sys2Proof.Machine
end

