-- ==== Sys2Proof/Machine/Link.lean ====
section
/-! DEFINITION. SEND, RECV and NOP (rules R180, R181, R186). -/

namespace Sys2Proof.Machine

/-- The ending of a SEND whose packet was handed to the transport (rule R180). -/
def sendResult (a : WriteAnswer) (s : State) : State :=
  match a with
  | .ok => finish { s with echolen := s.txlen }
  | .ioError _ => raise .transportError { s with echolen := 0 }

/-- SEND: transmit the packet and arm the echo stripper (rule R180). -/
def sendOp (s : State) : State :=
  if s.echolen ≠ 0 then raise .sequenceError s
  else if s.txlen = 0 then raise .invalidArgument s
  else sendResult (nextWrite s.packet s) (afterWrite s.packet s)

/-- What a RECV does with the bytes that came, `e` of echo and `n` of reply asked for (rules R181, R183). -/
def recvBytes (e n : Nat) (b : List Byte) (s : State) : State :=
  if b.length = 0 then noReply .noResponse { s with csumOk := false }
  else if b.length < e + n then noReply .truncatedFrame { s with csumOk := false }
  else if csumOk (b.drop e) then replied (b.drop e) { s with csumOk := true }
  else noReply .checksumMismatch { s with csumOk := false }

/-- RXRAW and RXCOUNT take the bytes that came, whatever follows (rules R33, R181). -/
def received (b : List Byte) (s : State) : State :=
  { storeIn .rxraw b s with rxcount := BitVec.ofNat 10 b.length }

/-- What a RECV does with the transport's answer (rule R181). -/
def recvResult (e n : Nat) (a : ReadAnswer) (s : State) : State :=
  match a with
  | .ioError => noReply .transportError { s with rxcount := 0, csumOk := false }
  | .bytes b => recvBytes e n b (received b s)

/-- The state once the transport was asked: it has answered, and the exchange is over whatever came back (rule R181). -/
def asked (s : State) : State := { afterRead s with echolen := 0 }

/-- RECV: read echo and reply, strip the echo, check the reply (rule R181). -/
def recvOp (s : State) : State :=
  if s.replen = 0 ∨ Config.maxReply < s.replen.toNat then noReply .invalidArgument s
  else recvResult s.echolen.toNat s.replen.toNat (nextRead (s.echolen.toNat + s.replen.toNat) s)
    (asked s)

/-- NOP (rule R186). -/
def execNop (s : State) : Host.Outcome State Fault Refusal := .next (finish s)

/-- SEND (rule R180). -/
def execSend (s : State) : Host.Outcome State Fault Refusal := .next (sendOp s)

/-- RECV (rule R181). -/
def execRecv (s : State) : Host.Outcome State Fault Refusal := .next (recvOp s)

end Sys2Proof.Machine
end

