-- ==== Sys2Proof/Machine/Port.lean ====
section
/-! DEFINITION. The host port: which accesses are admitted (rules R60 to R62), what a read answers and a
write stores (rules R21, R61, R64), and what the host's next line comes to (rule R89). -/

namespace Sys2Proof.Machine

/-! Admission (rules R60, R61, R62). -/

/-- The mapped word a 32-bit access at this offset reaches, or why it is not admitted. -/
def checkAccess (off : Nat) (width : Nat) : Except Fault Loc :=
  if width ≠ 4 then .error .accessWidth
  else if off % 4 ≠ 0 then .error .misaligned
  else
    match locate off with
    | some l => .ok l
    | none => .error .unmapped

/-- The host access a mapped word admits. -/
def Loc.access : Loc → Access
  | .reg r => r.access
  | .elem b _ => b.access

/-- A host read: the word it reaches, or why it is not admitted. -/
def checkRead (off : Nat) (width : Nat) : Except Fault Loc :=
  match checkAccess off width with
  | .error f => .error f
  | .ok l =>
    match l.access with
    | .writeOnly => .error .readOfCmd
    | .readOnly | .readWrite => .ok l

/-- A host write: the word it reaches, or why it is not admitted. -/
def checkWrite (off : Nat) (width : Nat) : Except Fault Loc :=
  match checkAccess off width with
  | .error f => .error f
  | .ok l =>
    match l.access with
    | .readOnly => .error .writeToReadOnly
    | .writeOnly | .readWrite => .ok l

/-! Registers and buffer elements as the host sees them (rules R21, R61). -/

/-- The stored value of a register, zero-extended to 32 bits; CMD stores nothing. -/
def readReg (r : Reg) (s : State) : Word :=
  match r with
  | .cmd => 0
  | .status => s.statusWord
  | .dst => s.dst.setWidth 32
  | .src => s.src.setWidth 32
  | .addr => s.addr.setWidth 32
  | .count => s.count.setWidth 32
  | .value => s.value.setWidth 32
  | .naddr => s.naddr.setWidth 32
  | .nval => s.nval.setWidth 32
  | .reqlen => s.reqlen.setWidth 32
  | .replen => s.replen.setWidth 32
  | .cdlen => s.cdlen.setWidth 32
  | .txlen => s.txlen.setWidth 32
  | .echolen => s.echolen.setWidth 32
  | .rxcount => s.rxcount.setWidth 32
  | .rplen => s.rplen.setWidth 32

/-- A host write to a register stores `w[width-1:0]`; a read-only register and CMD store nothing. -/
def writeReg (r : Reg) (w : Word) (s : State) : State :=
  match r with
  | .cmd | .status | .cdlen | .txlen | .echolen | .rplen => s
  | .dst => { s with dst := w.setWidth 8 }
  | .src => { s with src := w.setWidth 8 }
  | .addr => { s with addr := w.setWidth 24 }
  | .count => { s with count := w.setWidth 9 }
  | .value => { s with value := w.setWidth 8 }
  | .naddr => { s with naddr := w.setWidth 7 }
  | .nval => { s with nval := w.setWidth 8 }
  | .reqlen => { s with reqlen := w.setWidth 10 }
  | .replen => { s with replen := w.setWidth 9 }
  | .rxcount => { s with rxcount := w.setWidth 10 }

/-- Element `i` of a buffer, zero-extended to 32 bits. -/
def readElem (b : Buf) (i : Nat) (s : State) : Word :=
  match b with
  | .alist => (s.mem.readAddress (Buf.alist.elemAddr i)).setWidth 32
  | .wval | .cdata | .txbuf | .rxraw | .reply => (s.mem.read (b.elemAddr i)).setWidth 32

/-- A host write to an element stores `w[width-1:0]`; a read-only buffer stores nothing. -/
def writeElem (b : Buf) (i : Nat) (w : Word) (s : State) : State :=
  match b with
  | .alist => { s with mem := s.mem.writeAddress (Buf.alist.elemAddr i) (w.setWidth 24) }
  | .wval | .rxraw => { s with mem := s.mem.write (b.elemAddr i) (w.setWidth 8) }
  | .cdata | .txbuf | .reply => s

/-- The value a host read of a mapped word returns (rule R64: nothing else happens in the block). -/
def readLoc (l : Loc) (s : State) : Word :=
  match l with
  | .reg r => readReg r s
  | .elem b i => readElem b i s

/-- The state after a host write that runs no operation: only the value is stored (rule R64). -/
def writeLoc (l : Loc) (w : Word) (s : State) : State :=
  match l with
  | .reg r => writeReg r w s
  | .elem b i => writeElem b i w s

/-- The host has its answer; it remembers the last value read, and of STATUS the last one separately (rule R89). -/
def answerRead (l : Loc) (s : State) : State :=
  let v := readLoc l s
  { s with host := { s.host with readData := v, status := if l = .reg .status then v else s.host.status } }

/-! The host's next line (rule R89). -/

/-- A code that is no instruction: an illegal operation word raises IllegalOperation and changes nothing
else (rule R82); bytes that are no wire row stand for no host lines (log 6). -/
def rejected (c : Code) (s : State) : State :=
  match c with
  | .opWord _ => raise .illegalOperation s
  | .wire _ => s

/-- A code the host's line hands over: the instruction it is decoded to is to run. -/
def issue (c : Code) (s : State) : Fetched :=
  match decode c with
  | .ok i => .issue i s
  | .error _ => .done (rejected c s)

/-- A host write: to CMD it starts an operation, elsewhere it stores (rule R64). -/
def hostWrite (off : Nat) (width : Nat) (w : Word) (s : State) : Fetched :=
  match checkWrite off width with
  | .error f => .fault f
  | .ok (.reg .cmd) => issue (.opWord w) s
  | .ok l => .done (writeLoc l w s)

/-- A host read. -/
def hostRead (off : Nat) (width : Nat) (s : State) : Fetched :=
  match checkRead off width with
  | .error f => .fault f
  | .ok l => .done (answerRead l s)

/-- The lines after a label: after the FIRST line that bears it, where several do (log 18). -/
def afterLabel (l : Nat) : List Line → Option (List Line)
  | [] => none
  | .label k :: rest => if k = l then some rest else afterLabel l rest
  | _ :: rest => afterLabel l rest

/-- The host goes on at these lines. -/
def State.continueAt (s : State) (ls : List Line) : State := { s with host := { s.host with pending := ls } }

/-- A host control-flow action; the block executes nothing for it (rule R89). A `goto` to a label the
program does not have leaves the host no line (log 7). -/
def act (a : Act) (s : State) : State :=
  match a with
  | .stop => s.continueAt []
  | .skip k => s.continueAt (s.host.pending.drop k)
  | .goto l => s.continueAt ((afterLabel l s.host.prog).getD [])

/-- Bits [3:0] of the value the last `rd STATUS` returned (rule R89). -/
def State.seenErr (s : State) : BitVec 4 := s.host.status.extractLsb' 0 4

/-- What a line comes to, the host having moved past it. -/
def runLine (l : Line) (s : State) : Fetched :=
  match l with
  | .rd off width => hostRead off width s
  | .wr off width w => hostWrite off width w s
  | .reset => .done (blockReset s)
  | .wire bs => issue (.wire bs) s
  | .label _ => .done s
  | .jump a => .done (act a s)
  | .ifErr nonzero a => .done (if decide (s.seenErr ≠ 0) = nonzero then act a s else s)

/-- The host's next line; a host with no line left makes no access, and the block is idle (rule R224). -/
def fetch (s : State) : Fetched :=
  match s.host.pending with
  | [] => .done s
  | l :: rest => runLine l (s.continueAt rest)

/-- The line that stands for a code: the write of its word to CMD, or the wire row. -/
def codeLine (c : Code) : Line :=
  match c with
  | .opWord w => .wr 0x000 4 w
  | .wire bs => .wire bs

end Sys2Proof.Machine
end

