-- ==== Sys2Proof/Machine/Pseudo.lean ====
section
/-! DEFINITION. The assembler forms of rule R89 and the pseudo-operations of rules R90 to R99, as the
host lines they expand to. -/

namespace Sys2Proof.Machine

/-- `wr REG, imm` (rule R89); `imm` is below 2^32. -/
def wrReg (r : Reg) (w : Word) : Line := .wr r.offset 4 w

/-- `wr BUF[i], imm` (rule R89); where `base(BUF) + 4*i` passes 0xFFFF the access is not admitted (log 19). -/
def wrElem (b : Buf) (i : Nat) (w : Word) : Line := .wr (b.elemAddr i) 4 w

/-- `rd REG` (rule R89). -/
def rdReg (r : Reg) : Line := .rd r.offset 4

/-- `rd BUF[i]` (rule R89); where `base(BUF) + 4*i` passes 0xFFFF the access is not admitted (log 19). -/
def rdElem (b : Buf) (i : Nat) : Line := .rd (b.elemAddr i) 4

/-- `MNEMONIC`: the write of its word to CMD (rule R89). -/
def opLine (i : Instr) : Line := codeLine (encode i)

/-- `wr BUF[i], V_i` for each value, from element `i` on. -/
def wrElems (b : Buf) : Nat → List Word → List Line
  | _, [] => []
  | i, w :: ws => wrElem b i w :: wrElems b (i + 1) ws

/-- The lines that put a command's data bytes into CDATA: its operands written to the registers and
buffer they are read from, then its ENC operation (rules R90 to R94, each without its FRAME). -/
def commandLines : Command → List Line
  | .readBlock a n => [wrReg .addr (a.setWidth 32), wrReg .count (BitVec.ofNat 32 (n.toNat + 1)), opLine .encRdblk]
  | .readSingleAddresses as =>
    wrElems .alist 0 (as.map (fun a => a.setWidth 32)) ++ [wrReg .naddr (BitVec.ofNat 32 as.length), opLine .encRdaddr]
  | .writeBlock a vs =>
    [wrReg .addr (a.setWidth 32)] ++ wrElems .wval 0 (vs.map (fun v => v.setWidth 32)) ++
      [wrReg .nval (BitVec.ofNat 32 vs.length), opLine .encWrblk]
  | .writeSingleAddress a v => [wrReg .addr (a.setWidth 32), wrReg .value (v.setWidth 32), opLine .encWraddr]
  | .initRequest => [opLine .encInit]

/-- `BUILD.RDBLK a, c` for any `c` the host writes to COUNT (rule R90). -/
def buildRdblk (a : Address) (c : Word) : List Line :=
  [wrReg .addr (a.setWidth 32), wrReg .count c, opLine .encRdblk, opLine .frame]

/-- `BUILD.RDADDR [A_0, ..., A_{n-1}]` (rule R91). -/
def buildRdaddr (as : List Address) : List Line := commandLines (.readSingleAddresses as) ++ [opLine .frame]

/-- `BUILD.WRBLK a, [V_0, ..., V_{m-1}]` (rule R92). -/
def buildWrblk (a : Address) (vs : List Byte) : List Line := commandLines (.writeBlock a vs) ++ [opLine .frame]

/-- `BUILD.WRADDR a, v` (rule R93). -/
def buildWraddr (a : Address) (v : Byte) : List Line := commandLines (.writeSingleAddress a v) ++ [opLine .frame]

/-- `BUILD.INIT` (rule R94). -/
def buildInit : List Line := commandLines .initRequest ++ [opLine .frame]

/-- `EXCHANGE r`; its `end` passes over its own RECV only (rules R89, R95). -/
def exchange (r : Word) : List Line :=
  [wrReg .replen r, opLine .send, rdReg .status, .ifErr true (.skip 1), opLine .recv]

/-- `INIT.TRY r` (rule R96). -/
def initTry (r : Word) : List Line := buildInit ++ exchange r

/-- `POLL.START [A_0, ..., A_{n-1}]` (rule R97). -/
def pollStart (as : List Address) : List Line := buildRdaddr as ++ [opLine .send]

/-- `POLL.NEXT`: `REPLEN` is `NADDR + OFFSET_CONST` (rules R98, R99), NADDR being the number `n` that the program
is written with, and not read from the register when the line runs. DESIGN CHOICE, log 20. -/
def pollNext (n : BitVec 7) : List Line :=
  [wrReg .replen (BitVec.ofNat 32 (n.toNat + Config.offsetConst)), opLine .recv]

/-- The lines that give CDATA a packet's data: a command's, or, for a packet without data, an ENC that fails
and so leaves no valid command (rules R30, R136; log 10). -/
def dataLines : Option Command → List Line
  | some c => commandLines c
  | none => [wrReg .count 0, opLine .encRdblk]

/-- The lines that have the block build a packet: its ends, its data, FRAME (rules R27, R90 to R94). -/
def packetLines (d r : Byte) (c : Option Command) : List Line :=
  [wrReg .dst (d.setWidth 32), wrReg .src (r.setWidth 32)] ++ dataLines c ++ [opLine .frame]

/-- A pseudo-operation expanded: the host goes on with its lines, and then with those that follow it (rule R89). -/
def State.expandTo (s : State) (ls : List Line) : State := s.continueAt (ls ++ s.host.pending)

/-- A state whose host starts this program. -/
def State.withProgram (s : State) (ls : List Line) : State :=
  { s with host := { s.host with prog := ls, pending := ls } }

end Sys2Proof.Machine
end

