-- ==== Sys2Proof/Machine/Wire.lean ====
section
/-! DEFINITION. The six wire rows of the opcode table. The spec gives them no operation word: they are the
bytes the block builds, and the block acts only on a CMD write or reset (rules R5, R65). So a wire row in a
host program is a pseudo-operation, and running it is expanding it: the host goes on with the lines that
have the block build exactly these bytes (rules R90 to R94). DESIGN CHOICE, log 1. -/

namespace Sys2Proof.Machine

/-- SSM2.ReadBlock (rules R86, R90, R131). -/
def execSsm2ReadBlock (a : Address) (n : Byte) (s : State) : Host.Outcome State Fault Refusal :=
  .next (s.expandTo (commandLines (.readBlock a n)))

/-- SSM2.ReadSingleAddresses (rules R86, R91, R132). -/
def execSsm2ReadSingleAddresses (as : List Address) (s : State) : Host.Outcome State Fault Refusal :=
  .next (s.expandTo (commandLines (.readSingleAddresses as)))

/-- SSM2.WriteBlock (rules R86, R92, R133). -/
def execSsm2WriteBlock (a : Address) (vs : List Byte) (s : State) : Host.Outcome State Fault Refusal :=
  .next (s.expandTo (commandLines (.writeBlock a vs)))

/-- SSM2.WriteSingleAddress (rules R86, R93, R134). -/
def execSsm2WriteSingleAddress (a : Address) (v : Byte) (s : State) : Host.Outcome State Fault Refusal :=
  .next (s.expandTo (commandLines (.writeSingleAddress a v)))

/-- SSM2.InitRequest (rules R86, R94, R135). -/
def execSsm2InitRequest (s : State) : Host.Outcome State Fault Refusal :=
  .next (s.expandTo (commandLines .initRequest))

/-- SSM2.Packet (rules R84, R90 to R94, R110). -/
def execSsm2Packet (d r : Byte) (c : Option Command) (s : State) : Host.Outcome State Fault Refusal :=
  .next (s.expandTo (packetLines d r c))

end Sys2Proof.Machine
end

