-- ==== Sys2Proof/Machine/Dispatch.lean ====
section
/-! DEFINITION. One arm for each instruction of spec/opcode_table.json. -/

namespace Sys2Proof.Machine

def exec (i : Instr) (s : State) : Host.Outcome State Fault Refusal :=
  match i with
  | .nop => Sys2Proof.Machine.execNop s
  | .frame => Sys2Proof.Machine.execFrame s
  | .encRdblk => Sys2Proof.Machine.execEncRdblk s
  | .encRdaddr => Sys2Proof.Machine.execEncRdaddr s
  | .encWrblk => Sys2Proof.Machine.execEncWrblk s
  | .encWraddr => Sys2Proof.Machine.execEncWraddr s
  | .encInit => Sys2Proof.Machine.execEncInit s
  | .parse => Sys2Proof.Machine.execParse s
  | .verifyRx => Sys2Proof.Machine.execVerifyRx s
  | .verifyTx => Sys2Proof.Machine.execVerifyTx s
  | .send => Sys2Proof.Machine.execSend s
  | .recv => Sys2Proof.Machine.execRecv s
  | .ssm2ReadBlock a n => Sys2Proof.Machine.execSsm2ReadBlock a n s
  | .ssm2ReadSingleAddresses as => Sys2Proof.Machine.execSsm2ReadSingleAddresses as s
  | .ssm2WriteBlock a vs => Sys2Proof.Machine.execSsm2WriteBlock a vs s
  | .ssm2WriteSingleAddress a v => Sys2Proof.Machine.execSsm2WriteSingleAddress a v s
  | .ssm2InitRequest => Sys2Proof.Machine.execSsm2InitRequest s
  | .ssm2Packet d r c => Sys2Proof.Machine.execSsm2Packet d r c s

end Sys2Proof.Machine
end

