-- ==== Sys2Proof/Machine/Step.lean ====
section
/-! DEFINITION. One step: the host's next line, and where it hands over an instruction, that
instruction's whole operation (rules R63, R187). -/

namespace Sys2Proof.Machine

/-- What a line comes to, carried out: an instruction runs its whole operation. -/
def carryOut (f : Fetched) : Host.Outcome State Fault Refusal :=
  match f with
  | .done s => .next s
  | .issue i s => exec i s
  | .fault f => .fault f

/-- One step of the machine. -/
def step (s : State) : Host.Outcome State Fault Refusal := carryOut (fetch s)

/-- The host's next line hands over this table word (log 3). -/
def State.withFetchWord (s : State) (nbits w : Nat) : State :=
  s.continueAt [codeLine (tableCode nbits w)]

end Sys2Proof.Machine
end

