-- ==== Sys2Proof/Safety.lean ====
section
/-! DEFINITION. What the statements are said in: the invariant of every run, the legal packets, the
premise of a well-behaved transport (decision D29), what a command's host lines come to, and the words for
'nothing else changed'. -/

namespace Sys2Proof.Machine

/-- A byte sequence that is a whole packet of one of the five commands (rules R84, R86, R88). -/
def IsCommandPacket (f : List Byte) : Prop :=
  ∃ (d r : Byte) (c : Command), c.wf = true ∧ f = packetOf d r (encodeCommand c)

/-- The invariant of the block: what its rules promise of the registers and buffers it alone writes. -/
structure State.Inv (s : State) : Prop where
  /-- The storage is in its canonical form. -/
  memWf : s.mem.wf = true
  /-- Nothing is stored outside the mapped words (rule R60). -/
  memMapped : ∀ c ∈ s.mem, Memory.mapped c.1 = true
  /-- CDLEN ≠ 0: CDATA[0:CDLEN] is the data of one of the five commands (rules R30, R88). -/
  command : s.cdlen ≠ 0 → ∃ c : Command, c.wf = true ∧ s.command = encodeCommand c
  /-- TXLEN ≠ 0: TXBUF[0:TXLEN] is a packet of one of the five commands (rule R31). -/
  packet : s.txlen ≠ 0 → IsCommandPacket s.packet
  /-- ECHOLEN ≠ 0: it is the length of the packet the wire carried last (rule R32). -/
  echo : s.echolen ≠ 0 → ∃ old f, IsCommandPacket f ∧ s.txlog = old ++ f ∧ s.echolen.toNat = f.length
  /-- RPLEN stays within REPLY (rule R34). -/
  reply : s.rplen.toNat ≤ Config.maxRx
  /-- The block never writes code 5 (rule R218). -/
  noHandshake : s.err ≠ .handshakeFailed

/-- Everything on the wire so far is a sequence of packets of the five commands, each whole or, after a
failed write, cut short (rules R88, R182). -/
def State.WireClean (s : State) : Prop :=
  ∃ fs : List (List Byte), s.txlog = fs.flatten ∧ ∀ f ∈ fs, ∃ p, IsCommandPacket p ∧ f <+: p

/-- `EchoFaithful` (decision D29), a premise and no part of the step: the first ECHOLEN bytes of what the
next read returns are those of the last packet sent. -/
def EchoFaithful (s : State) : Prop :=
  ∀ b, nextRead (s.echolen.toNat + s.replen.toNat) s = .bytes b →
    b.take s.echolen.toNat = (s.txlog.drop (s.txlog.length - s.echolen.toNat)).take b.length

/-- Every stored byte reads as before, but for the first `n` elements of the one-byte buffer `b`. -/
def SameBut (b : Buf) (n : Nat) (s t : State) : Prop :=
  ∀ k, (∀ i, i < n → k ≠ b.elemAddr i) → t.mem.read k = s.mem.read k

/-! What a command's host lines come to: its operands loaded, then its ENC operation (rules R90 to R94). -/

/-- `wr ADDR, a` / `wr COUNT, n + 1` (rule R90): the operands of a ReadBlock whose last data byte is `n`. -/
def loadReadBlock (a : Address) (n : Byte) (s : State) : State :=
  { s with addr := a, count := BitVec.ofNat 9 (n.toNat + 1) }

/-- `wr ALIST[i], A_i` for each address / `wr NADDR, n` (rule R91). -/
def loadReadSingleAddresses (as : List Address) (s : State) : State :=
  { s with mem := s.mem.storeAddresses Buf.alist.base as, naddr := BitVec.ofNat 7 as.length }

/-- `wr ADDR, a` / `wr WVAL[j], V_j` for each value / `wr NVAL, m` (rule R92). -/
def loadWriteBlock (a : Address) (vs : List Byte) (s : State) : State :=
  { s with addr := a, mem := s.mem.store Buf.wval.base vs, nval := BitVec.ofNat 8 vs.length }

/-- `wr ADDR, a` / `wr VALUE, v` (rule R93). -/
def loadWriteSingleAddress (a : Address) (v : Byte) (s : State) : State :=
  { s with addr := a, value := v }

/-- `wr DST, d` / `wr SRC, r` (rule R27). -/
def loadEnds (d r : Byte) (s : State) : State := { s with dst := d, src := r }

/-- The command's operands loaded (rules R90 to R94); InitRequest has none. -/
def loadCommand (c : Command) (s : State) : State :=
  match c with
  | .readBlock a n => loadReadBlock a n s
  | .readSingleAddresses as => loadReadSingleAddresses as s
  | .writeBlock a vs => loadWriteBlock a vs s
  | .writeSingleAddress a v => loadWriteSingleAddress a v s
  | .initRequest => s

/-- The ENC operation that encodes this kind of command (rules R131 to R135). -/
def encOp (c : Command) (s : State) : State :=
  match c with
  | .readBlock _ _ => encRdblkOp s
  | .readSingleAddresses _ => encRdaddrOp s
  | .writeBlock _ _ => encWrblkOp s
  | .writeSingleAddress _ _ => encWraddrOp s
  | .initRequest => encInitOp s

/-- The command's operands loaded and its ENC operation performed (rules R90 to R94). -/
def buildCommand (c : Command) (s : State) : State := encOp c (loadCommand c s)

/-- The offsets of the elements that a command's list operands are put in (rules R91, R92). -/
def operandCells : Command → List Nat
  | .readSingleAddresses as =>
    (List.range as.length).flatMap fun i => [Buf.alist.elemAddr i, Buf.alist.elemAddr i + 1, Buf.alist.elemAddr i + 2]
  | .writeBlock _ vs => (List.range vs.length).map Buf.wval.elemAddr
  | .readBlock _ _ | .writeSingleAddress _ _ | .initRequest => []

/-- The five ENC operations (rules R131 to R135). -/
def encOps : List Instr := [.encRdblk, .encRdaddr, .encWrblk, .encWraddr, .encInit]

/-- Instruction `i` completes in both states and leaves the same command data, CDLEN and ERR. -/
def SameEncoding (i : Instr) (s s' : State) : Prop :=
  ∃ t t', exec i s = .next t ∧ exec i s' = .next t' ∧ t.command = t'.command ∧ t.cdlen = t'.cdlen ∧ t.err = t'.err

/-- The host's next line is an access that is not admitted (rule R62). -/
def State.AtNotAdmittedAccess (s : State) : Prop :=
  (∃ off width rest, s.host.pending = .rd off width :: rest ∧
    (width ≠ 4 ∨ off % 4 ≠ 0 ∨ locate off = none ∨ locate off = some (.reg .cmd))) ∨
  (∃ off width w rest, s.host.pending = .wr off width w :: rest ∧
    (width ≠ 4 ∨ off % 4 ≠ 0 ∨ locate off = none ∨ ∃ l, locate off = some l ∧ l.access = .readOnly))

/-- `n` steps, stopping at the first fault or refusal: several host lines, one a step (rules R63, R89). -/
def runSteps : Nat → State → Host.Outcome State Fault Refusal
  | 0, s => .next s
  | n + 1, s =>
    match step s with
    | .next t => runSteps n t
    | .fault f => .fault f
    | .refused r => .refused r

/-- The host is about to hand over this code. -/
def State.handing (s : State) (c : Code) (rest : List Line) : Prop := s.host.pending = codeLine c :: rest

end Sys2Proof.Machine
end

