-- ==== Sys2Proof/Certificates/Slice0/Obligations.lean ====
section
/-! DEFINITION. The statements, from the numbered rules of the spec. Each says which rule it formalises.
They speak of the host's accesses as the lines that stand in State, one a step (the model's choice, log 3),
and of the transport's answers as a script and then free draws (the model's choice, log 4). -/

open Sys2Proof Sys2Proof.Machine

/-! Reset, registers, STATUS and the host port. -/

/-- Rule R240 (with R241): reset is a step between host accesses that gives every register and every
buffer element its reset value and leaves the environment and the wire's log alone. -/
def Obligations.ResetStepGivesResetValues : Prop :=
  ∀ (s : State) (rest : List Line), s.host.pending = .reset :: rest →
    ∃ t, step s = .next t ∧
      t.statusWord = 0 ∧ t.err = .ok ∧ t.csumOk = false ∧ t.link = false ∧
      t.dst = 0x10 ∧ t.src = 0xF0 ∧ t.addr = 0 ∧ t.count = 0 ∧ t.value = 0 ∧ t.naddr = 0 ∧ t.nval = 0 ∧
      t.reqlen = 0 ∧ t.replen = 0 ∧ t.cdlen = 0 ∧ t.txlen = 0 ∧ t.echolen = 0 ∧ t.rxcount = 0 ∧ t.rplen = 0 ∧
      (∀ b i, i < b.size → readElem b i t = 0) ∧
      t.txlog = s.txlog ∧ t.env = s.env

/-- Rule R242: what each operation does right after reset, with no other setup. -/
def Obligations.OperationsAfterReset : Prop :=
  exec .frame State.reset = .next { State.reset with err := .invalidArgument } ∧
  exec .send State.reset = .next { State.reset with err := .invalidArgument } ∧
  exec .recv State.reset = .next { State.reset with err := .invalidArgument } ∧
  exec .encRdblk State.reset = .next { State.reset with err := .invalidArgument } ∧
  exec .encRdaddr State.reset = .next { State.reset with err := .invalidArgument } ∧
  exec .encWrblk State.reset = .next { State.reset with err := .invalidArgument } ∧
  exec .verifyRx State.reset = .next { State.reset with err := .checksumMismatch } ∧
  exec .verifyTx State.reset = .next { State.reset with err := .checksumMismatch } ∧
  exec .parse State.reset = .next State.reset ∧
  exec .nop State.reset = .next State.reset ∧
  (∃ t, exec .encWraddr State.reset = .next t ∧ t.err = .ok ∧ t.command = [0xB8, 0x00, 0x00, 0x00, 0x00]) ∧
  (∃ t, exec .encInit State.reset = .next t ∧ t.err = .ok ∧ t.command = [0xBF])

/-- Rules R23, R26, R210: STATUS as a host read returns it, and the number of every error code. -/
def Obligations.StatusWordFields : Prop :=
  (∀ s : State,
    s.statusWord.extractLsb' 0 4 = s.err.code ∧ s.statusWord.getLsbD 4 = s.csumOk ∧
    (s.statusWord.getLsbD 5 = true ↔ s.echolen ≠ 0) ∧ s.statusWord.extractLsb' 6 26 = 0) ∧
  Err.ok.code = 0 ∧ Err.invalidArgument.code = 1 ∧ Err.truncatedFrame.code = 2 ∧ Err.noResponse.code = 3 ∧
  Err.checksumMismatch.code = 4 ∧ Err.handshakeFailed.code = 5 ∧ Err.transportError.code = 6 ∧
  Err.illegalOperation.code = 7 ∧ Err.sequenceError.code = 8

/-- Rule R60: the mapped words are exactly the sixteen registers, at the offsets of rule R21, and the buffers'
elements, in the ranges of its table. -/
def Obligations.MappedWordsAreRegistersAndElements : Prop :=
  (∀ off l, off % 4 = 0 →
    (locate off = some l ↔
      (∃ r, l = .reg r ∧ off = r.offset) ∨ (∃ b i, i < b.size ∧ l = .elem b i ∧ off = b.elemAddr i))) ∧
  Reg.cmd.offset = 0x000 ∧ Reg.status.offset = 0x004 ∧ Reg.dst.offset = 0x008 ∧ Reg.src.offset = 0x00C ∧
  Reg.addr.offset = 0x010 ∧ Reg.count.offset = 0x014 ∧ Reg.value.offset = 0x018 ∧ Reg.naddr.offset = 0x01C ∧
  Reg.nval.offset = 0x020 ∧ Reg.reqlen.offset = 0x024 ∧ Reg.replen.offset = 0x028 ∧ Reg.cdlen.offset = 0x02C ∧
  Reg.txlen.offset = 0x030 ∧ Reg.echolen.offset = 0x034 ∧ Reg.rxcount.offset = 0x038 ∧ Reg.rplen.offset = 0x03C ∧
  Buf.alist.elemAddr 0 = 0x0100 ∧ Buf.alist.elemAddr (Buf.alist.size - 1) = 0x024C ∧
  Buf.wval.elemAddr 0 = 0x0400 ∧ Buf.wval.elemAddr (Buf.wval.size - 1) = 0x07E8 ∧
  Buf.cdata.elemAddr 0 = 0x0800 ∧ Buf.cdata.elemAddr (Buf.cdata.size - 1) = 0x0BF8 ∧
  Buf.txbuf.elemAddr 0 = 0x0C00 ∧ Buf.txbuf.elemAddr (Buf.txbuf.size - 1) = 0x100C ∧
  Buf.rxraw.elemAddr 0 = 0x1400 ∧ Buf.rxraw.elemAddr (Buf.rxraw.size - 1) = 0x1C1C ∧
  Buf.reply.elemAddr 0 = 0x2400 ∧ Buf.reply.elemAddr (Buf.reply.size - 1) = 0x2C1C

/-- Rule R62: a host access stops the host exactly where it is not admitted, and completes everywhere else. -/
def Obligations.OnlyNotAdmittedAccessesStop : Prop :=
  (∀ (s : State) (off : Nat) (width : Nat) (rest : List Line), s.host.pending = .rd off width :: rest →
    ((∃ f, step s = .fault f) ↔
      (width ≠ 4 ∨ off % 4 ≠ 0 ∨ locate off = none ∨ locate off = some (.reg .cmd))) ∧
    ((∃ f, step s = .fault f) ∨ (∃ t, step s = .next t))) ∧
  (∀ (s : State) (off : Nat) (width : Nat) (w : Word) (rest : List Line),
    s.host.pending = .wr off width w :: rest →
    ((∃ f, step s = .fault f) ↔
      (width ≠ 4 ∨ off % 4 ≠ 0 ∨ locate off = none ∨
        ∃ l, locate off = some l ∧ l.access = .readOnly)) ∧
    ((∃ f, step s = .fault f) ∨ (∃ t, step s = .next t)))

/-- Rules R21 and R64: a host write to an RW register stores the low bits of the word that the register's
width holds, and changes no other register, no buffer and nothing of the wire. -/
def Obligations.HostRegisterWriteStoresLowBits : Prop :=
  ∀ (s : State) (r : Reg) (w : Word) (rest : List Line), r.access = .readWrite →
    s.host.pending = wrReg r w :: rest →
    ∃ t, step s = .next t ∧ (readReg r t).toNat = w.toNat % 2 ^ r.width ∧
      (∀ r', r' ≠ r → readReg r' t = readReg r' s) ∧
      t.mem = s.mem ∧ t.txlog = s.txlog ∧ t.env = s.env ∧ t.host = { s.host with pending := rest }

/-- Rules R29, R61 and R64: a host write to an element of ALIST, WVAL or RXRAW stores the low bits of the
word that the element holds, and changes no other element and no register. -/
def Obligations.HostElementWriteStoresLowBits : Prop :=
  ∀ (s : State) (b : Buf) (i : Nat) (w : Word) (rest : List Line), s.mem.wf = true → b.access = .readWrite →
    i < b.size → s.host.pending = wrElem b i w :: rest →
    ∃ t, step s = .next t ∧ (readElem b i t).toNat = w.toNat % 2 ^ (8 * b.elemBytes) ∧
      (∀ b' j, j < b'.size → ¬ (b' = b ∧ j = i) → readElem b' j t = readElem b' j s) ∧
      t = { s with mem := t.mem, host := { s.host with pending := rest } }

/-- Rule R64: every admitted host read answers the stored value and changes nothing in the block; the answer
is the stored register or element zero-extended (rules R21, R61). -/
def Obligations.HostReadsHaveNoSideEffect : Prop :=
  (∀ (s : State) (r : Reg) (rest : List Line), r ≠ .cmd → s.host.pending = rdReg r :: rest →
    ∃ t, step s = .next t ∧ t.host.readData = readReg r s ∧ t.host.pending = rest ∧
      t.host.prog = s.host.prog ∧ t = { s with host := t.host }) ∧
  (∀ (s : State) (b : Buf) (i : Nat) (rest : List Line), i < b.size → s.host.pending = rdElem b i :: rest →
    ∃ t, step s = .next t ∧ t.host.readData = readElem b i s ∧ t.host.pending = rest ∧
      t.host.prog = s.host.prog ∧ t.host.status = s.host.status ∧ t = { s with host := t.host }) ∧
  (∀ s : State,
    readReg .status s = s.statusWord ∧ (readReg .dst s).toNat = s.dst.toNat ∧ (readReg .src s).toNat = s.src.toNat ∧
    (readReg .addr s).toNat = s.addr.toNat ∧ (readReg .count s).toNat = s.count.toNat ∧
    (readReg .value s).toNat = s.value.toNat ∧ (readReg .naddr s).toNat = s.naddr.toNat ∧
    (readReg .nval s).toNat = s.nval.toNat ∧ (readReg .reqlen s).toNat = s.reqlen.toNat ∧
    (readReg .replen s).toNat = s.replen.toNat ∧ (readReg .cdlen s).toNat = s.cdlen.toNat ∧
    (readReg .txlen s).toNat = s.txlen.toNat ∧ (readReg .echolen s).toNat = s.echolen.toNat ∧
    (readReg .rxcount s).toNat = s.rxcount.toNat ∧ (readReg .rplen s).toNat = s.rplen.toNat) ∧
  (∀ (s : State) (b : Buf) (i : Nat),
    (b = .alist → (readElem b i s).toNat = (s.mem.readAddress (b.elemAddr i)).toNat) ∧
    (b ≠ .alist → (readElem b i s).toNat = (s.mem.read (b.elemAddr i)).toNat))

/-! Decoding, encoding and the step. -/

/-- Rules R80 to R86: decoding an encoded well-formed instruction gives it back, every operand at every
value the encoding admits. -/
def Obligations.DecodeOfEncodeIsTheInstruction : Prop :=
  ∀ i : Instr, i.wf = true → decode (encode i) = .ok i

/-- Rules R80 to R86: every code the decoder accepts is the one encoding of a well-formed instruction. -/
def Obligations.AcceptedCodesAreEncodings : Prop :=
  ∀ (c : Code) (i : Instr), decode c = .ok i → i.wf = true ∧ encode i = c

/-- Rule R82: the illegal words are those its three tests name; a host write of one to CMD raises
IllegalOperation and changes nothing else, and a host write of any other word performs the operation
selected by its low five bits. -/
def Obligations.IllegalWordsChangeOnlyErr : Prop :=
  ∀ w : Word,
    ((w.extractLsb' 5 27 ≠ 0 ∨ 0xB ≤ (w.extractLsb' 0 4).toNat ∨ (w.getLsbD 4 = true ∧ w.extractLsb' 0 4 ≠ 0x8)) →
      ∀ (s : State) (rest : List Line), s.host.pending = codeLine (.opWord w) :: rest →
        step s = .next { s.continueAt rest with err := .illegalOperation }) ∧
    (¬ (w.extractLsb' 5 27 ≠ 0 ∨ 0xB ≤ (w.extractLsb' 0 4).toNat ∨ (w.getLsbD 4 = true ∧ w.extractLsb' 0 4 ≠ 0x8)) →
      ∃ i, decodeOpBits (w.extractLsb' 0 5).toNat = some i ∧ decode (.opWord w) = .ok i ∧
        ∀ (s : State) (rest : List Line), s.host.pending = codeLine (.opWord w) :: rest →
          step s = exec i (s.continueAt rest))

/-- Rules R81 and R83: the operation words are the twelve of the table and no other word. -/
def Obligations.TwelveOperationWords : Prop :=
  ∀ (w : Word) (i : Instr), decode (.opWord w) = .ok i ↔
    (w = 0x00000000 ∧ i = .nop) ∨ (w = 0x00000001 ∧ i = .frame) ∨ (w = 0x00000002 ∧ i = .encRdblk) ∨
    (w = 0x00000003 ∧ i = .encRdaddr) ∨ (w = 0x00000004 ∧ i = .encWrblk) ∨ (w = 0x00000005 ∧ i = .encWraddr) ∨
    (w = 0x00000006 ∧ i = .encInit) ∨ (w = 0x00000007 ∧ i = .parse) ∨ (w = 0x00000008 ∧ i = .verifyRx) ∨
    (w = 0x00000018 ∧ i = .verifyTx) ∨ (w = 0x00000009 ∧ i = .send) ∨ (w = 0x0000000A ∧ i = .recv)

/-- Sample codes of every family, written out from rules R81, R84 and R86 and the examples of
95_test_vectors.md. -/
def Obligations.SampleCodesDecode : Prop :=
  decode (.opWord 0x00000000) = .ok .nop ∧ decode (.opWord 0x00000018) = .ok .verifyTx ∧
  decode (.opWord 0x0000000A) = .ok .recv ∧
  decode (.wire [0xA0, 0x00, 0x12, 0x34, 0x56, 0xFF]) = .ok (.ssm2ReadBlock 0x123456 0xFF) ∧
  decode (.wire [0xA8, 0x01, 0x00, 0x00, 0x1C, 0x00, 0x00, 0x08]) = .ok (.ssm2ReadSingleAddresses [0x00001C, 0x000008]) ∧
  decode (.wire [0x80, 0x10, 0xF0, 0x01, 0xBF, 0x40]) = .ok (.ssm2Packet 0x10 0xF0 (some .initRequest))

/-- A step runs the instruction the host's next line hands over: the line is passed, nothing else is added
(rules R63, R80, R89; that the lines stand in State is the model's choice, log 3). -/
def Obligations.StepRunsTheDecodedInstruction : Prop :=
  ∀ (s : State) (c : Code) (i : Instr) (rest : List Line), s.handing c rest → decode c = .ok i →
    step s = exec i (s.continueAt rest)

/-- Rules R214 and R218: a host write to CMD always completes, after any error and whatever the word, and
never writes code 5. -/
def Obligations.EveryCmdWriteCompletes : Prop :=
  ∀ (s : State) (w : Word) (rest : List Line), s.host.pending = codeLine (.opWord w) :: rest →
    ∃ t, step s = .next t ∧ t.err ≠ .handshakeFailed

/-- Rules R89 and R224: a host control-flow line, and a host with no line left, change nothing but where
the host goes on: `if ERR` takes any action or passes it, `end` stops, `goto L` continues after its label.
The idle step and the line that skips are the model's choice (log 3), and so are where a `goto` goes on whose
label stands on several lines (the first of them, log 18) or on none (no line left, log 7). -/
def Obligations.ControlFlowTouchesOnlyTheHost : Prop :=
  (∀ s : State, s.host.pending = [] → step s = .next s) ∧
  (∀ (s : State) (l : Nat) (rest : List Line), s.host.pending = .label l :: rest →
    step s = .next (s.continueAt rest)) ∧
  (∀ (s : State) (nonzero : Bool) (a : Act) (rest : List Line), s.host.pending = .ifErr nonzero a :: rest →
    (decide (s.host.status.extractLsb' 0 4 ≠ 0) = nonzero → step s = .next (act a (s.continueAt rest))) ∧
    (decide (s.host.status.extractLsb' 0 4 ≠ 0) ≠ nonzero → step s = .next (s.continueAt rest))) ∧
  (∀ (s : State) (a : Act) (rest : List Line), s.host.pending = .jump a :: rest →
    step s = .next (act a (s.continueAt rest))) ∧
  (∀ s : State, act .stop s = s.continueAt []) ∧
  (∀ (s : State) (k : Nat), act (.skip k) s = s.continueAt (s.host.pending.drop k)) ∧
  (∀ (s : State) (l : Nat) (pre post : List Line), s.host.prog = pre ++ .label l :: post → .label l ∉ pre →
    act (.goto l) s = s.continueAt post) ∧
  (∀ (s : State) (l : Nat), .label l ∉ s.host.prog → act (.goto l) s = s.continueAt [])

/-! Whole-machine rules. -/

/-- Rule R25: STATUS.CSUM_OK is written only by VERIFY.RX, VERIFY.TX, and RECV once it has asked the transport. -/
def Obligations.OnlyVerifyAndRecvWriteCsumOk : Prop :=
  (∀ (i : Instr) (s t : State), i ≠ .verifyRx → i ≠ .verifyTx → i ≠ .recv → exec i s = .next t →
    t.csumOk = s.csumOk) ∧
  (∀ (s t : State), (s.replen = 0 ∨ 260 < s.replen.toNat) → exec .recv s = .next t → t.csumOk = s.csumOk)

/-- Rule R38: the wire's log only grows, only a SEND makes it grow, and only by a prefix of the packet. -/
def Obligations.OnlySendReachesTheWire : Prop :=
  ∀ (i : Instr) (s t : State), exec i s = .next t →
    ∃ bs, t.txlog = s.txlog ++ bs ∧ bs <+: s.packet ∧ (i ≠ .send → bs = [])

/-- Rule R34: REPLY is written only by a successful PARSE or RECV; one that raises an error sets RPLEN to 0. -/
def Obligations.OnlyGoodParseOrRecvWritesReply : Prop :=
  ∀ (i : Instr) (s t : State), exec i s = .next t →
    ((i = .parse ∨ i = .recv) → t.err ≠ .ok → t.rplen = 0) ∧
    (¬ ((i = .parse ∨ i = .recv) ∧ t.err = .ok) →
      ∀ j, j < Buf.reply.size → readElem .reply j t = readElem .reply j s)

/-- Rule R32: ECHOLEN is set by a successful SEND only, to TXLEN; every RECV that asks the transport, every
failed transmit and reset clear it; no other instruction changes it. -/
def Obligations.EchoLengthIsArmedBySendAndClearedByRecv : Prop :=
  (∀ (s : State) (rest : List Line), s.host.pending = .reset :: rest → ∃ t, step s = .next t ∧ t.echolen = 0) ∧
  ∀ (i : Instr) (s t : State), exec i s = .next t →
    (i ≠ .send → i ≠ .recv → t.echolen = s.echolen) ∧
    (i = .send → t.err = .ok → s.echolen = 0 ∧ t.echolen = s.txlen) ∧
    (i = .send → t.err = .transportError → t.echolen = 0) ∧
    (i = .recv → s.replen ≠ 0 → s.replen.toNat ≤ 260 → t.echolen = 0) ∧
    (i = .recv → (s.replen = 0 ∨ 260 < s.replen.toNat) → t.echolen = s.echolen)

/-! The checksum. -/

/-- Rule R112: `sum8` is the sum of the bytes modulo 256. -/
def Obligations.Sum8IsTheSumModulo256 : Prop :=
  ∀ bs : List Byte, (sum8 bs).toNat = (bs.map BitVec.toNat).sum % 256

/-- Rule R113: the predicate is false on the empty frame, and on any other compares the last byte with
the sum of the others; on one byte it is true exactly of 0x00. -/
def Obligations.ChecksumPredicate : Prop :=
  csumOk [] = false ∧ (∀ (p : List Byte) (c : Byte), csumOk (p ++ [c]) = true ↔ sum8 p = c) ∧
  (∀ b : Byte, csumOk [b] = true ↔ b = 0x00)

/-- Rule R115: a frame that passes fails once any one byte of it is changed. -/
def Obligations.SingleByteCorruptionIsDetected : Prop :=
  ∀ (f : List Byte) (i : Nat) (v : Byte) (h : i < f.length), csumOk f = true → v ≠ f[i] →
    csumOk (f.set i v) = false

/-- Rule R116: two changes in the checked prefix whose differences cancel go unseen, and so does a change
of the final byte matched by an equal change of the prefix sum. -/
def Obligations.CancellingCorruptionIsNotDetected : Prop :=
  (∀ (f : List Byte) (i j : Nat) (d : Byte) (_ : i ≠ j) (hi : i + 1 < f.length) (hj : j + 1 < f.length),
    csumOk f = true → csumOk ((f.set i (f[i] + d)).set j (f[j] - d)) = true) ∧
  (∀ (p q : List Byte) (c d : Byte), csumOk (p ++ [c]) = true → sum8 q = sum8 p + d →
    csumOk (q ++ [c + d]) = true)

/-! FRAME. -/

/-- Rules R110, R111: FRAME puts the packet of DST, SRC and the command in TXBUF and its length in TXLEN,
and touches nothing else; with no command it sets TXLEN to 0 and raises InvalidArgument. -/
def Obligations.FrameBuildsThePacket : Prop :=
  (∀ s : State, s.mem.wf = true → s.cdlen ≠ 0 →
    ∃ t, exec .frame s = .next t ∧
      t.packet = ([0x80, s.dst, s.src, s.cdlen] ++ s.command) ++ [sum8 ([0x80, s.dst, s.src, s.cdlen] ++ s.command)] ∧
      t.txlen.toNat = s.cdlen.toNat + 5 ∧ SameBut .txbuf (s.cdlen.toNat + 5) s t ∧
      t = { s with mem := t.mem, txlen := t.txlen, err := .ok }) ∧
  (∀ s : State, s.cdlen = 0 → exec .frame s = .next { s with txlen := 0, err := .invalidArgument })

/-- Rule R114: after a successful FRAME, TXBUF[3] is TXLEN - 5, the length of the data, the last byte is
the sum of the others, and the packet passes the check. -/
def Obligations.FramedPacketPassesTheCheck : Prop :=
  ∀ (s t : State), s.mem.wf = true → exec .frame s = .next t → t.err = .ok →
    (t.mem.read (Buf.txbuf.elemAddr 3)).toNat = t.txlen.toNat - 5 ∧ t.txlen.toNat - 5 = s.command.length ∧
    t.mem.read (Buf.txbuf.elemAddr (t.txlen.toNat - 1)) = sum8 (t.mem.load Buf.txbuf.base (t.txlen.toNat - 1)) ∧
    csumOk t.packet = true

/-! The encoder. -/

/-- Rule R131: ENC.RDBLK. -/
def Obligations.EncRdblkEncodesReadBlock : Prop :=
  (∀ s : State, s.mem.wf = true → 1 ≤ s.count.toNat → s.count.toNat ≤ 256 →
    ∃ t, exec .encRdblk s = .next t ∧
      t.command = [0xA0, 0x00, s.addr.extractLsb' 16 8, s.addr.extractLsb' 8 8, s.addr.extractLsb' 0 8,
        BitVec.ofNat 8 (s.count.toNat - 1)] ∧
      t.cdlen = 6 ∧ SameBut .cdata 6 s t ∧ t = { s with mem := t.mem, cdlen := t.cdlen, err := .ok }) ∧
  (∀ s : State, (s.count = 0 ∨ 256 < s.count.toNat) →
    exec .encRdblk s = .next { s with cdlen := 0, err := .invalidArgument })

/-- Rule R132: ENC.RDADDR. -/
def Obligations.EncRdaddrEncodesReadSingleAddresses : Prop :=
  (∀ s : State, s.mem.wf = true → 1 ≤ s.naddr.toNat → s.naddr.toNat ≤ 84 →
    ∃ t, exec .encRdaddr s = .next t ∧
      t.command = [0xA8, 0x01] ++ s.addresses.flatMap (fun a => [a.extractLsb' 16 8, a.extractLsb' 8 8, a.extractLsb' 0 8]) ∧
      t.cdlen.toNat = 2 + 3 * s.naddr.toNat ∧ SameBut .cdata (2 + 3 * s.naddr.toNat) s t ∧
      t = { s with mem := t.mem, cdlen := t.cdlen, err := .ok }) ∧
  (∀ s : State, (s.naddr = 0 ∨ 84 < s.naddr.toNat) →
    exec .encRdaddr s = .next { s with cdlen := 0, err := .invalidArgument })

/-- Rule R133: ENC.WRBLK. -/
def Obligations.EncWrblkEncodesWriteBlock : Prop :=
  (∀ s : State, s.mem.wf = true → 1 ≤ s.nval.toNat → s.nval.toNat ≤ 251 →
    ∃ t, exec .encWrblk s = .next t ∧
      t.command = [0xB0, s.addr.extractLsb' 16 8, s.addr.extractLsb' 8 8, s.addr.extractLsb' 0 8] ++ s.values ∧
      t.cdlen.toNat = 4 + s.nval.toNat ∧ SameBut .cdata (4 + s.nval.toNat) s t ∧
      t = { s with mem := t.mem, cdlen := t.cdlen, err := .ok }) ∧
  (∀ s : State, (s.nval = 0 ∨ 251 < s.nval.toNat) →
    exec .encWrblk s = .next { s with cdlen := 0, err := .invalidArgument })

/-- Rules R134, R135: ENC.WRADDR and ENC.INIT, which raise nothing. -/
def Obligations.EncWraddrAndInitEncode : Prop :=
  ∀ s : State, s.mem.wf = true →
    (∃ t, exec .encWraddr s = .next t ∧
      t.command = [0xB8, s.addr.extractLsb' 16 8, s.addr.extractLsb' 8 8, s.addr.extractLsb' 0 8, s.value] ∧
      t.cdlen = 5 ∧ SameBut .cdata 5 s t ∧ t = { s with mem := t.mem, cdlen := t.cdlen, err := .ok }) ∧
    (∃ t, exec .encInit s = .next t ∧ t.command = [0xBF] ∧
      t.cdlen = 1 ∧ SameBut .cdata 1 s t ∧ t = { s with mem := t.mem, cdlen := t.cdlen, err := .ok })

/-- Rule R137: an ENC operation completes in every state of the link; what it leaves in CDATA[0:CDLEN],
CDLEN and ERR depends on the operands its own rule lists and on nothing else. -/
def Obligations.EncReadsOnlyItsOperands : Prop :=
  ∀ s s' : State, s.mem.wf = true → s'.mem.wf = true →
    (s.addr = s'.addr → s.count = s'.count → SameEncoding .encRdblk s s') ∧
    (s.naddr = s'.naddr → s.addresses = s'.addresses → SameEncoding .encRdaddr s s') ∧
    (s.addr = s'.addr → s.nval = s'.nval → s.values = s'.values → SameEncoding .encWrblk s s') ∧
    (s.addr = s'.addr → s.value = s'.value → SameEncoding .encWraddr s s') ∧
    SameEncoding .encInit s s'

/-- Rules R136, R111, R180, R249: an ENC that fails leaves no command and writes no buffer; FRAME then fails,
and SEND then fails, with InvalidArgument or, where an echo is pending, SequenceError, and puts nothing on the
wire. -/
def Obligations.FailedEncStopsTheChain : Prop :=
  ∀ (i : Instr) (s s1 : State), i ∈ encOps → exec i s = .next s1 → s1.err ≠ .ok →
    s1.err = .invalidArgument ∧ s1.cdlen = 0 ∧ s1.mem = s.mem ∧
    ∃ s2 s3, exec .frame s1 = .next s2 ∧ s2.err = .invalidArgument ∧ s2.txlen = 0 ∧
      exec .send s2 = .next s3 ∧ s3.txlog = s.txlog ∧
      (s.echolen = 0 → s3.err = .invalidArgument) ∧ (s.echolen ≠ 0 → s3.err = .sequenceError)

/-! PARSE and VERIFY. -/

/-- Rule R160: PARSE. -/
def Obligations.ParseStripsTheEcho : Prop :=
  (∀ s : State, s.mem.wf = true → s.rxcount.toNat ≤ 520 → s.reqlen.toNat ≤ s.rxcount.toNat →
    ∃ t, exec .parse s = .next t ∧ t.replyBytes = s.raw.drop s.reqlen.toNat ∧
      t.rplen.toNat = s.rxcount.toNat - s.reqlen.toNat ∧
      SameBut .reply (s.rxcount.toNat - s.reqlen.toNat) s t ∧
      t = { s with mem := t.mem, rplen := t.rplen, err := .ok }) ∧
  (∀ s : State, 520 < s.rxcount.toNat → exec .parse s = .next { s with rplen := 0, err := .invalidArgument }) ∧
  (∀ s : State, s.rxcount.toNat ≤ 520 → s.rxcount.toNat < s.reqlen.toNat →
    exec .parse s = .next { s with rplen := 0, err := .truncatedFrame })

/-- Rule R161: the packet followed by a reply, parsed with REQLEN = TXLEN, gives exactly the reply. -/
def Obligations.ParseRoundTrip : Prop :=
  ∀ (s : State) (y : List Byte), s.mem.wf = true → s.txlen.toNat + y.length ≤ 520 →
    s.rxcount.toNat = s.txlen.toNat + y.length → s.reqlen.toNat = s.txlen.toNat → s.raw = s.packet ++ y →
    ∃ t, exec .parse s = .next t ∧ t.replyBytes = y ∧ t.rplen.toNat = y.length ∧ t.err = .ok

/-- Rules R165, R166: VERIFY.RX and VERIFY.TX write the check's answer to CSUM_OK, raise ChecksumMismatch
where it fails (with RPLEN or TXLEN = 0 too), and change nothing else. -/
def Obligations.VerifyReportsTheCheck : Prop :=
  ∀ s : State,
    (csumOk s.replyBytes = true → exec .verifyRx s = .next { s with csumOk := true, err := .ok }) ∧
    (csumOk s.replyBytes = false → exec .verifyRx s = .next { s with csumOk := false, err := .checksumMismatch }) ∧
    (s.rplen = 0 → csumOk s.replyBytes = false) ∧
    (csumOk s.packet = true → exec .verifyTx s = .next { s with csumOk := true, err := .ok }) ∧
    (csumOk s.packet = false → exec .verifyTx s = .next { s with csumOk := false, err := .checksumMismatch }) ∧
    (s.txlen = 0 → csumOk s.packet = false)

/-- Rule R167: in every state the invariant allows, VERIFY.TX passes exactly when TXLEN ≠ 0. -/
def Obligations.VerifyTxPassesExactlyOnAPacket : Prop :=
  ∀ s : State, s.Inv → ∃ t, exec .verifyTx s = .next t ∧ (t.err = .ok ↔ s.txlen ≠ 0) ∧ (t.csumOk = true ↔ s.txlen ≠ 0) ∧
    (s.txlen = 0 → t.err = .checksumMismatch)

/-! SEND, RECV and NOP. -/

/-- Rules R180, R182, R244: SEND, its four outcomes. The transport takes the packet; its write fails after
some prefix; an echo is pending (also where TXLEN = 0); there is no packet. The last two ask nothing of the
transport. -/
def Obligations.SendTransmitsThePacket : Prop :=
  (∀ s : State, s.echolen = 0 → s.txlen ≠ 0 → nextWrite s.packet s = .ok →
    ∃ t, exec .send s = .next t ∧ t.txlog = s.txlog ++ s.packet ∧ t.echolen = s.txlen ∧ t.link = true ∧
      t = { s with txlog := t.txlog, echolen := t.echolen, err := .ok, env := s.env.afterWrite }) ∧
  (∀ (s : State) (n : Nat), s.echolen = 0 → s.txlen ≠ 0 → nextWrite s.packet s = .ioError n →
    ∃ t, exec .send s = .next t ∧ t.txlog = s.txlog ++ s.packet.take n ∧
      t = { s with txlog := t.txlog, echolen := 0, err := .transportError, env := s.env.afterWrite }) ∧
  (∀ s : State, s.echolen ≠ 0 → exec .send s = .next { s with err := .sequenceError }) ∧
  (∀ s : State, s.echolen = 0 → s.txlen = 0 → exec .send s = .next { s with err := .invalidArgument })

/-- Rules R181, R183: the outcomes of a RECV that asked the transport, row by row, and what it leaves alone;
a RECV with REPLEN out of 1..260 makes no read and keeps ECHOLEN. -/
def Obligations.RecvOutcomes : Prop :=
  (∀ s : State, s.mem.wf = true → 1 ≤ s.replen.toNat → s.replen.toNat ≤ 260 →
    ∃ t, exec .recv s = .next t ∧
      t = { s with mem := t.mem, rxcount := t.rxcount, rplen := t.rplen, csumOk := t.csumOk, echolen := 0,
                   err := t.err, env := s.env.afterRead } ∧
      (∀ k, (∀ i, i < t.rxcount.toNat → k ≠ Buf.rxraw.elemAddr i) →
        (t.err = .ok → ∀ i, i < s.replen.toNat → k ≠ Buf.reply.elemAddr i) → t.mem.read k = s.mem.read k) ∧
      (t.err ≠ .ok → ∀ j, j < Buf.reply.size → readElem .reply j t = readElem .reply j s) ∧
      (nextRead (s.echolen.toNat + s.replen.toNat) s = .ioError →
        t.err = .transportError ∧ t.rxcount = 0 ∧ t.rplen = 0 ∧ t.csumOk = false) ∧
      (∀ b, nextRead (s.echolen.toNat + s.replen.toNat) s = .bytes b →
        t.rxcount.toNat = b.length ∧ t.raw = b ∧
        (b.length = 0 → t.err = .noResponse ∧ t.rplen = 0 ∧ t.csumOk = false) ∧
        (0 < b.length → b.length < s.echolen.toNat + s.replen.toNat →
          t.err = .truncatedFrame ∧ t.rplen = 0 ∧ t.csumOk = false) ∧
        (b.length = s.echolen.toNat + s.replen.toNat → csumOk (b.drop s.echolen.toNat) = false →
          t.err = .checksumMismatch ∧ t.rplen = 0 ∧ t.csumOk = false) ∧
        (b.length = s.echolen.toNat + s.replen.toNat → csumOk (b.drop s.echolen.toNat) = true →
          t.err = .ok ∧ t.rplen.toNat = s.replen.toNat ∧ t.csumOk = true ∧ t.replyBytes = b.drop s.echolen.toNat))) ∧
  (∀ s : State, (s.replen = 0 ∨ 260 < s.replen.toNat) →
    exec .recv s = .next { s with rplen := 0, err := .invalidArgument })

/-- Rules R184, R185: the first RECV after a successful SEND strips TXLEN bytes whatever they are, and the
next one, with no SEND between, strips nothing. -/
def Obligations.EchoIsStrippedOnce : Prop :=
  ∀ (s t : State) (e y z : List Byte) (rest : List ReadAnswer), s.mem.wf = true →
    exec .send s = .next t → t.err = .ok → 1 ≤ s.replen.toNat → s.replen.toNat ≤ 260 →
    s.env.reads = .bytes (e ++ y) :: .bytes z :: rest →
    e.length = s.txlen.toNat → y.length = s.replen.toNat → z.length = s.replen.toNat →
    csumOk y = true → csumOk z = true →
    ∃ u v, exec .recv t = .next u ∧ u.err = .ok ∧ u.replyBytes = y ∧ u.raw = e ++ y ∧ u.echolen = 0 ∧
      exec .recv u = .next v ∧ v.err = .ok ∧ v.replyBytes = z ∧ v.raw = z

/-- Rule R189: on a built packet with no echo pending, SEND and then RECV put the packet on the wire, and
return only the reply portion of the echo and reply that come back, or NoResponse where nothing comes. -/
def Obligations.ExchangeReturnsOnlyTheReply : Prop :=
  ∀ (s : State) (ws : List WriteAnswer) (b : List Byte) (rs : List ReadAnswer), s.Inv → s.txlen ≠ 0 → s.echolen = 0 →
    1 ≤ s.replen.toNat → s.replen.toNat ≤ 260 →
    s.env.writes = .ok :: ws → s.env.reads = .bytes b :: rs →
    ∃ t u, exec .send s = .next t ∧ t.err = .ok ∧ exec .recv t = .next u ∧ u.txlog = s.txlog ++ s.packet ∧
      u.packet = s.packet ∧ u.txlen = s.txlen ∧ u.echolen = 0 ∧
      (b = [] → u.err = .noResponse) ∧
      (0 < b.length → b.length < s.txlen.toNat + s.replen.toNat → u.err = .truncatedFrame) ∧
      (∀ e y, b = e ++ y → e.length = s.txlen.toNat → y.length = s.replen.toNat →
        (csumOk y = true → u.err = .ok ∧ u.replyBytes = y) ∧ (csumOk y = false → u.err = .checksumMismatch))

/-- Decision D29: under the premise `EchoFaithful` (its form is the model's, log 16), RXRAW begins with the
packet that was sent. -/
def Obligations.FaithfulEchoIsThePacketSent : Prop :=
  ∀ (s t : State) (old f : List Byte), s.mem.wf = true → EchoFaithful s → s.txlog = old ++ f →
    s.echolen.toNat = f.length → 1 ≤ s.replen.toNat → s.replen.toNat ≤ 260 →
    exec .recv s = .next t → t.err = .ok → t.raw.take f.length = f

/-- Rule R186: NOP. -/
def Obligations.NopOnlyClearsErr : Prop := ∀ s : State, exec .nop s = .next { s with err := .ok }

/-! The wire rows (log 1: that running one is expanding it to the host lines that have the block build it is
the model's choice). -/

/-- Rules R86, R131, R134, R135 under log 1: running a wire row without a list completes, with its host lines
placed before those still to run; those lines, run one access a step, leave exactly the row's bytes in CDATA. -/
def Obligations.FixedWireRowsBuildTheirBytes : Prop :=
  ∀ s : State, s.mem.wf = true →
    (∀ a n, ∃ t u, exec (.ssm2ReadBlock a n) s = .next t ∧
      t = s.continueAt (commandLines (.readBlock a n) ++ s.host.pending) ∧
      runSteps (commandLines (.readBlock a n)).length t = .next u ∧ encode (.ssm2ReadBlock a n) = .wire u.command ∧
      u.cdlen = 6 ∧ u.addr = a ∧ u.count.toNat = n.toNat + 1 ∧ SameBut .cdata 6 s u ∧
      u = { s with mem := u.mem, cdlen := u.cdlen, addr := u.addr, count := u.count, err := .ok }) ∧
    (∀ a v, ∃ t u, exec (.ssm2WriteSingleAddress a v) s = .next t ∧
      t = s.continueAt (commandLines (.writeSingleAddress a v) ++ s.host.pending) ∧
      runSteps (commandLines (.writeSingleAddress a v)).length t = .next u ∧
      encode (.ssm2WriteSingleAddress a v) = .wire u.command ∧
      u.cdlen = 5 ∧ u.addr = a ∧ u.value = v ∧ SameBut .cdata 5 s u ∧
      u = { s with mem := u.mem, cdlen := u.cdlen, addr := u.addr, value := u.value, err := .ok }) ∧
    (∃ t u, exec .ssm2InitRequest s = .next t ∧ t = s.continueAt (commandLines .initRequest ++ s.host.pending) ∧
      runSteps (commandLines .initRequest).length t = .next u ∧ encode .ssm2InitRequest = .wire u.command ∧
      u.cdlen = 1 ∧ SameBut .cdata 1 s u ∧ u = { s with mem := u.mem, cdlen := u.cdlen, err := .ok })

/-- Rules R86, R132, R133 under log 1: running a wire row with a list completes, with its host lines placed
before those still to run; those lines, run one access a step, leave exactly the row's bytes in CDATA, and its
list in ALIST or WVAL. -/
def Obligations.ListWireRowsBuildTheirBytes : Prop :=
  ∀ s : State, s.mem.wf = true →
    (∀ as : List Address, 1 ≤ as.length → as.length ≤ 84 →
      ∃ t u, exec (.ssm2ReadSingleAddresses as) s = .next t ∧
        t = s.continueAt (commandLines (.readSingleAddresses as) ++ s.host.pending) ∧
        runSteps (commandLines (.readSingleAddresses as)).length t = .next u ∧
        encode (.ssm2ReadSingleAddresses as) = .wire u.command ∧
        u.cdlen.toNat = 2 + 3 * as.length ∧ u.naddr.toNat = as.length ∧ u.addresses = as ∧
        (∀ k, (∀ i, i < as.length → k ≠ Buf.alist.elemAddr i ∧ k ≠ Buf.alist.elemAddr i + 1 ∧ k ≠ Buf.alist.elemAddr i + 2) →
          (∀ i, i < 2 + 3 * as.length → k ≠ Buf.cdata.elemAddr i) → u.mem.read k = s.mem.read k) ∧
        u = { s with mem := u.mem, cdlen := u.cdlen, naddr := u.naddr, err := .ok }) ∧
    (∀ (a : Address) (vs : List Byte), 1 ≤ vs.length → vs.length ≤ 251 →
      ∃ t u, exec (.ssm2WriteBlock a vs) s = .next t ∧
        t = s.continueAt (commandLines (.writeBlock a vs) ++ s.host.pending) ∧
        runSteps (commandLines (.writeBlock a vs)).length t = .next u ∧
        encode (.ssm2WriteBlock a vs) = .wire u.command ∧
        u.cdlen.toNat = 4 + vs.length ∧ u.addr = a ∧ u.nval.toNat = vs.length ∧ u.values = vs ∧
        (∀ k, (∀ i, i < vs.length → k ≠ Buf.wval.elemAddr i) →
          (∀ i, i < 4 + vs.length → k ≠ Buf.cdata.elemAddr i) → u.mem.read k = s.mem.read k) ∧
        u = { s with mem := u.mem, cdlen := u.cdlen, addr := u.addr, nval := u.nval, err := .ok })

/-- Rules R84, R110 under log 1: running a packet row completes, with its host lines placed before those still
to run; those lines, run one access a step, leave exactly the row's bytes in TXBUF and its data in CDATA, the
operands where `loadCommand` puts them, and the rest as it was. With dataLength 0 they leave no valid command
and raise InvalidArgument, by way of COUNT = 0 (log 10). -/
def Obligations.PacketRowBuildsItsBytes : Prop :=
  (∀ (s : State) (d r : Byte) (c : Command), s.mem.wf = true → c.wf = true →
    ∃ t u, exec (.ssm2Packet d r (some c)) s = .next t ∧
      t = s.continueAt (packetLines d r (some c) ++ s.host.pending) ∧
      runSteps (packetLines d r (some c)).length t = .next u ∧ encode (.ssm2Packet d r (some c)) = .wire u.packet ∧
      u.command = encodeCommand c ∧ u.dst = d ∧ u.src = r ∧ u.err = .ok ∧
      (∀ k, (∀ i, i < (encodeCommand c).length → k ≠ Buf.cdata.elemAddr i) →
        (∀ i, i < (encodeCommand c).length + 5 → k ≠ Buf.txbuf.elemAddr i) →
        u.mem.read k = (loadCommand c s).mem.read k) ∧
      (∀ k, k ∉ operandCells c → (loadCommand c s).mem.read k = s.mem.read k) ∧
      u = { s with mem := u.mem, dst := d, src := r, addr := (loadCommand c s).addr, count := (loadCommand c s).count,
                   value := (loadCommand c s).value, naddr := (loadCommand c s).naddr,
                   nval := (loadCommand c s).nval, cdlen := u.cdlen, txlen := u.txlen, err := .ok }) ∧
  (∀ (s : State) (d r : Byte), ∃ t, exec (.ssm2Packet d r none) s = .next t ∧
    t = s.continueAt (packetLines d r none ++ s.host.pending) ∧
    runSteps (packetLines d r none).length t =
      .next { s with dst := d, src := r, count := 0, cdlen := 0, txlen := 0, err := .invalidArgument })

/-- Rules R89 to R94 under log 1: a wire row of well-formed operands is its host lines: running it places them,
and running them, one host access a step, comes to loading the operands and performing the ENC operation, and
for a packet DST, SRC and FRAME as well. -/
def Obligations.WireRowsAreTheirHostLines : Prop :=
  (∀ (s : State) (c : Command), c.wf = true →
    ∃ t, exec c.instr s = .next t ∧ t = s.continueAt (commandLines c ++ s.host.pending) ∧
      runSteps (commandLines c).length t = .next (buildCommand c s)) ∧
  (∀ (s : State) (d r : Byte) (c : Command) (ls : List Line), c.wf = true →
    ls = [wrReg .dst (d.setWidth 32), wrReg .src (r.setWidth 32)] ++ commandLines c ++ [opLine .frame] →
    ∃ t, exec (.ssm2Packet d r (some c)) s = .next t ∧ t = s.continueAt (ls ++ s.host.pending) ∧
      runSteps ls.length t = .next (frameOp (buildCommand c (loadEnds d r s))))

/-- Rules R89, R95: the lines of `EXCHANGE r` set REPLEN, run SEND, and run RECV exactly where that SEND
left no error; the host then has no line left. -/
def Obligations.ExchangeLinesRunSendThenRecv : Prop :=
  ∀ (s : State) (r : Word), ∃ t, exec .send { s with replen := r.setWidth 9 } = .next t ∧
    (t.err ≠ .ok → ∃ u, runSteps 4 (s.withProgram (exchange r)) = .next u ∧
      u.host.pending = [] ∧ u = { t with host := u.host }) ∧
    (t.err = .ok → ∃ v u, exec .recv t = .next v ∧
      runSteps 5 (s.withProgram (exchange r)) = .next u ∧
      u.host.pending = [] ∧ u = { v with host := u.host })

/-! Invariants. -/

/-- The invariant holds after reset (rule R240), and a clean wire does because State.reset has TXLOG empty, which
is the model's choice (log 8): rule R241 says that reset does not clear TXLOG. -/
def Obligations.ResetMeetsTheInvariant : Prop := State.reset.Inv ∧ State.reset.WireClean

/-- Rules R30 to R34, R88, R218: every step of every agent keeps the invariant of the block. -/
def Obligations.StepKeepsTheInvariant : Prop :=
  ∀ s t : State, s.Inv → step s = .next t → t.Inv

/-- Rules R88, R182, R215: every step keeps the wire clean: nothing but packets of the five commands, each
whole or cut short by a failed write, ever reaches it. -/
def Obligations.StepKeepsTheWireClean : Prop :=
  ∀ s t : State, s.Inv → s.WireClean → step s = .next t → t.WireClean

/-! What stops the machine, and when the block acts. -/

/-- Rule R216: the error outcomes are ordinary results of a step, since every instruction answers a next state
whatever error it raises; and the machine stops only at a host access that is not admitted, and at nothing
else: there, and nowhere else, a step is a fault, everywhere else it answers a next state. -/
def Obligations.NothingStopsButANotAdmittedAccess : Prop :=
  (∀ (i : Instr) (s : State), ∃ t, exec i s = .next t) ∧
  (∀ s : State, s.AtNotAdmittedAccess → ∃ f, step s = .fault f) ∧
  (∀ s : State, ¬ s.AtNotAdmittedAccess → ∃ t, step s = .next t)

/-- Rules R5, R24, R64, R65: the block acts only on the host's CMD writes and reset. A line that is neither a
write nor reset (a wire row among them) changes nothing but the host; and a line that is neither a write to CMD
nor reset leaves everything that only operations write: STATUS, the lengths and buffers that are read-only to
the host, the wire and the environment. -/
def Obligations.BlockActsOnlyOnCmdWritesAndReset : Prop :=
  ∀ (s t : State) (l : Line) (rest : List Line), s.host.pending = l :: rest → step s = .next t → l ≠ .reset →
    ((∀ off width w, l ≠ .wr off width w) → t = { s with host := t.host }) ∧
    ((∀ width w, l ≠ .wr 0x000 width w) →
      t.err = s.err ∧ t.csumOk = s.csumOk ∧ t.cdlen = s.cdlen ∧ t.txlen = s.txlen ∧ t.echolen = s.echolen ∧
      t.rplen = s.rplen ∧ t.txlog = s.txlog ∧ t.env = s.env ∧
      ∀ b j, b.access = .readOnly → j < b.size → readElem b j t = readElem b j s)
end

