-- ==== Sys2Proof/Laws/Memory.lean ====
section
/-! SUPPORT. The laws of the buffers' storage: a read after a write, the canonical form kept, and the
same for the sequences that are stored and loaded. -/

namespace Sys2Proof.Machine

theorem Memory.wf_cons {k : Nat} {v : Byte} {m : Memory} :
    Memory.wf ((k, v) :: m) = true ↔ v ≠ 0 ∧ (∀ c ∈ m, k < c.1) ∧ m.wf = true := by
  simp [Memory.wf, List.all_eq_true, and_assoc]

@[simp] theorem Memory.wf_nil : Memory.wf [] = true := rfl

@[simp] theorem Memory.read_nil (k : Nat) : Memory.read [] k = 0 := rfl

theorem Memory.read_cons (a : Nat) (b : Byte) (m : Memory) (k : Nat) :
    Memory.read ((a, b) :: m) k = if k = a then b else m.read k := rfl

/-- Nothing is read at an offset below every listed one. -/
theorem Memory.read_of_lt {m : Memory} {k : Nat} (h : ∀ c ∈ m, k < c.1) : m.read k = 0 := by
  induction m with
  | nil => rfl
  | cons c m ih =>
    obtain ⟨a, b⟩ := c
    have hka : k < a := h (a, b) (by simp)
    rw [Memory.read_cons, if_neg (by omega)]
    exact ih fun c hc => h c (by simp [hc])

/-- Every cell after a write is the one written or one that was there, and one written is not 0. -/
theorem Memory.mem_write {m : Memory} {k : Nat} {v : Byte} {c : Host.Cell} (h : c ∈ m.write k v) :
    c ∈ m ∨ (c = (k, v) ∧ v ≠ 0) := by
  induction m with
  | nil =>
    unfold Memory.write at h
    split at h <;> simp_all
  | cons d m ih =>
    obtain ⟨a, b⟩ := d
    unfold Memory.write at h
    split at h
    · split at h
      · exact .inl h
      · rcases List.mem_cons.1 h with h | h
        · exact .inr ⟨h, ‹_›⟩
        · exact .inl h
    · split at h
      · split at h
        · exact .inl (List.mem_cons_of_mem _ h)
        · rcases List.mem_cons.1 h with h | h
          · exact .inr ⟨by simp_all, ‹_›⟩
          · exact .inl (List.mem_cons_of_mem _ h)
      · rcases List.mem_cons.1 h with h | h
        · exact .inl (by simp [h])
        · rcases ih h with h | h
          · exact .inl (List.mem_cons_of_mem _ h)
          · exact .inr h

theorem Memory.wf_write {m : Memory} (h : m.wf = true) (k : Nat) (v : Byte) : (m.write k v).wf = true := by
  induction m with
  | nil =>
    unfold Memory.write
    split
    · rfl
    · exact Memory.wf_cons.2 ⟨‹_›, by simp, rfl⟩
  | cons d m ih =>
    obtain ⟨a, b⟩ := d
    obtain ⟨hb, hlt, hm⟩ := Memory.wf_cons.1 h
    unfold Memory.write
    split
    · split
      · exact h
      · refine Memory.wf_cons.2 ⟨‹_›, ?_, h⟩
        intro c hc
        rcases List.mem_cons.1 hc with rfl | hc
        · assumption
        · exact Nat.lt_trans ‹_› (hlt c hc)
    · split
      · split
        · exact hm
        · exact Memory.wf_cons.2 ⟨‹_›, hlt, hm⟩
      · refine Memory.wf_cons.2 ⟨hb, ?_, ih hm⟩
        intro c hc
        rcases Memory.mem_write hc with hc | ⟨rfl, -⟩
        · exact hlt c hc
        · show a < k
          omega

/-- Read after write. -/
theorem Memory.read_write {m : Memory} (h : m.wf = true) (k j : Nat) (v : Byte) :
    (m.write k v).read j = if j = k then v else m.read j := by
  induction m with
  | nil =>
    unfold Memory.write
    split <;> simp_all [Memory.read_cons]
  | cons d m ih =>
    obtain ⟨a, b⟩ := d
    obtain ⟨-, hlt, hm⟩ := Memory.wf_cons.1 h
    unfold Memory.write
    split
    · have h0 : ∀ i, i ≤ k → Memory.read ((a, b) :: m) i = 0 := fun i hi =>
        Memory.read_of_lt fun c hc => by
          rcases List.mem_cons.1 hc with rfl | hc
          · show i < a
            omega
          · have := hlt c hc
            omega
      split
      · by_cases hj : j = k
        · simp [h0 k (Nat.le_refl k), *]
        · simp [hj]
      · rw [Memory.read_cons]
    · split
      · subst k
        split
        · by_cases hj : j = a
          · simp [Memory.read_of_lt hlt, *]
          · simp [hj, Memory.read_cons]
        · simp only [Memory.read_cons]
          split <;> rfl
      · have hka : ¬ a = k := fun h => absurd h.symm ‹¬ k = a›
        simp only [Memory.read_cons, ih hm]
        by_cases hj : j = a
        · simp [hj, hka]
        · simp [hj]

/-- A write leaves every other offset alone (no premise on the form). -/
theorem Memory.read_write_ne (m : Memory) {k j : Nat} (v : Byte) (hj : j ≠ k) :
    (m.write k v).read j = m.read j := by
  induction m with
  | nil =>
    unfold Memory.write
    split <;> simp [Memory.read_cons, hj]
  | cons d m ih =>
    obtain ⟨a, b⟩ := d
    unfold Memory.write
    split
    · split <;> simp [Memory.read_cons, hj]
    · split
      · subst k
        split <;> simp [Memory.read_cons, hj]
      · simp only [Memory.read_cons, ih]

/-! Sequences in consecutive one-byte elements. -/

theorem Memory.wf_store {m : Memory} (h : m.wf = true) (k : Nat) (bs : List Byte) : (m.store k bs).wf = true := by
  induction bs generalizing m k with
  | nil => exact h
  | cons b bs ih => exact ih (Memory.wf_write h k b) (k + 4)

/-- A store leaves alone every offset that is none of its elements'. -/
theorem Memory.read_store_of_ne (m : Memory) (k j : Nat) (bs : List Byte)
    (hj : ∀ i, i < bs.length → j ≠ k + 4 * i) : (m.store k bs).read j = m.read j := by
  induction bs generalizing m k with
  | nil => rfl
  | cons b bs ih =>
    have h0 : j ≠ k := by simpa using hj 0 (by simp)
    rw [Memory.store, ih, Memory.read_write_ne m b h0]
    intro i hi
    have := hj (i + 1) (by simpa using hi)
    omega

/-- What a store put in element `i`. -/
theorem Memory.read_store {m : Memory} (h : m.wf = true) (k : Nat) (bs : List Byte) (i : Nat) (hi : i < bs.length) :
    (m.store k bs).read (k + 4 * i) = bs[i] := by
  induction bs generalizing m k i with
  | nil => simp at hi
  | cons b bs ih =>
    cases i with
    | zero =>
      rw [Memory.store, Memory.read_store_of_ne _ _ _ _ (fun i _ => by omega)]
      simp [Memory.read_write h]
    | succ i =>
      have := ih (Memory.wf_write h k b) (k + 4) i (by simpa using hi)
      simpa [Memory.store, Nat.mul_add, Nat.add_assoc, Nat.add_comm, Nat.add_left_comm] using this

@[simp] theorem Memory.length_load (m : Memory) (k n : Nat) : (m.load k n).length = n := by
  induction n generalizing k with
  | zero => rfl
  | succ n ih => simp [Memory.load, ih]

theorem Memory.getElem_load (m : Memory) (k n i : Nat) (hi : i < (m.load k n).length) :
    (m.load k n)[i] = m.read (k + 4 * i) := by
  induction n generalizing k i with
  | zero => simp [Memory.load] at hi
  | succ n ih =>
    cases i with
    | zero => simp [Memory.load]
    | succ i =>
      have := ih (k + 4) i (by simpa using hi)
      simpa [Memory.load, Nat.mul_add, Nat.add_assoc, Nat.add_comm, Nat.add_left_comm] using this

/-- Two storages that agree on the elements load the same sequence. -/
theorem Memory.load_congr {m m' : Memory} {k n : Nat} (h : ∀ i, i < n → m.read (k + 4 * i) = m'.read (k + 4 * i)) :
    m.load k n = m'.load k n := by
  refine List.ext_getElem (by simp) fun i hi _ => ?_
  rw [Memory.getElem_load, Memory.getElem_load]
  exact h i (by simpa using hi)

/-- A sequence that was stored loads as it is. -/
theorem Memory.load_store {m : Memory} (h : m.wf = true) (k : Nat) (bs : List Byte) {n : Nat} (hn : n = bs.length) :
    (m.store k bs).load k n = bs := by
  subst hn
  refine List.ext_getElem (by simp) fun i _ hi => ?_
  rw [Memory.getElem_load, Memory.read_store h k bs i hi]

/-- A sequence in other elements loads as before a store. -/
theorem Memory.load_store_of_ne (m : Memory) (k k' n : Nat) (bs : List Byte)
    (hd : ∀ i j, i < bs.length → j < n → k' + 4 * j ≠ k + 4 * i) : (m.store k bs).load k' n = m.load k' n :=
  Memory.load_congr fun j hj => Memory.read_store_of_ne m k _ bs fun i hi => hd i j hi hj

theorem Memory.mem_store {m : Memory} {k : Nat} {bs : List Byte} {c : Host.Cell} (h : c ∈ m.store k bs) :
    c ∈ m ∨ ∃ i, i < bs.length ∧ c.1 = k + 4 * i := by
  induction bs generalizing m k with
  | nil => exact .inl h
  | cons b bs ih =>
    rcases ih h with h | ⟨i, hi, hc⟩
    · rcases Memory.mem_write h with h | ⟨rfl, -⟩
      · exact .inl h
      · exact .inr ⟨0, by simp, rfl⟩
    · exact .inr ⟨i + 1, by simpa using hi, by omega⟩

/-! 24-bit elements. -/

theorem Memory.wf_writeAddress {m : Memory} (h : m.wf = true) (k : Nat) (a : Address) :
    (m.writeAddress k a).wf = true :=
  Memory.wf_write (Memory.wf_write (Memory.wf_write h _ _) _ _) _ _

theorem Memory.read_writeAddress_of_ne (m : Memory) (k j : Nat) (a : Address)
    (hj : j ≠ k ∧ j ≠ k + 1 ∧ j ≠ k + 2) : (m.writeAddress k a).read j = m.read j := by
  obtain ⟨h0, h1, h2⟩ := hj
  rw [Memory.writeAddress, Memory.read_write_ne _ _ h2, Memory.read_write_ne _ _ h1, Memory.read_write_ne _ _ h0]

/-- Putting an Address together from its three bytes gives it back (rule R130). -/
theorem ofBe24_bytes (a : Address) : ofBe24 (a.extractLsb' 16 8) (a.extractLsb' 8 8) (a.extractLsb' 0 8) = a := by
  apply BitVec.eq_of_toNat_eq
  simp only [ofBe24, BitVec.toNat_append, BitVec.extractLsb'_toNat, Nat.shiftLeft_eq, Nat.shiftRight_eq_div_pow]
  have h := a.isLt
  rw [← Nat.shiftLeft_eq, ← Nat.shiftLeft_eq, ← Nat.shiftLeft_add_eq_or_of_lt (by omega),
    ← Nat.shiftLeft_add_eq_or_of_lt (by omega)]
  simp only [Nat.shiftLeft_eq]
  omega

/-- The three bytes of an Address put together are the ones it was put together from (rule R130). -/
theorem be24_ofBe24 (h m l : Byte) : be24 (ofBe24 h m l) = [h, m, l] := by
  simp only [be24, List.cons.injEq, and_true]
  refine ⟨?_, ?_, ?_⟩ <;> apply BitVec.eq_of_toNat_eq <;>
    simp only [ofBe24, BitVec.toNat_append, BitVec.extractLsb'_toNat] <;>
    rw [← Nat.shiftLeft_add_eq_or_of_lt (by omega), ← Nat.shiftLeft_add_eq_or_of_lt (by omega)] <;>
    simp only [Nat.shiftLeft_eq, Nat.shiftRight_eq_div_pow] <;> omega

theorem Memory.readAddress_writeAddress {m : Memory} (h : m.wf = true) (k : Nat) (a : Address) :
    (m.writeAddress k a).readAddress k = a := by
  have h1 := Memory.wf_write h k (a.extractLsb' 0 8)
  have h2 := Memory.wf_write h1 (k + 1) (a.extractLsb' 8 8)
  simp only [Memory.readAddress, Memory.writeAddress, Memory.read_write h2, Memory.read_write h1, Memory.read_write h]
  simpa using ofBe24_bytes a

theorem Memory.wf_storeAddresses {m : Memory} (h : m.wf = true) (k : Nat) (as : List Address) :
    (m.storeAddresses k as).wf = true := by
  induction as generalizing m k with
  | nil => exact h
  | cons a as ih => exact ih (Memory.wf_writeAddress h k a) (k + 4)

theorem Memory.read_storeAddresses_of_ne (m : Memory) (k j : Nat) (as : List Address)
    (hj : ∀ i, i < as.length → j ≠ k + 4 * i ∧ j ≠ k + 4 * i + 1 ∧ j ≠ k + 4 * i + 2) :
    (m.storeAddresses k as).read j = m.read j := by
  induction as generalizing m k with
  | nil => rfl
  | cons a as ih =>
    rw [Memory.storeAddresses, ih, Memory.read_writeAddress_of_ne]
    · simpa using hj 0 (by simp)
    · intro i hi
      have := hj (i + 1) (by simpa using hi)
      omega

@[simp] theorem Memory.length_loadAddresses (m : Memory) (k n : Nat) : (m.loadAddresses k n).length = n := by
  induction n generalizing k with
  | zero => rfl
  | succ n ih => simp [Memory.loadAddresses, ih]

/-- Two storages that agree on the elements load the same addresses. -/
theorem Memory.loadAddresses_congr {m m' : Memory} {k n : Nat}
    (h : ∀ j, k ≤ j → j < k + 4 * n → m.read j = m'.read j) : m.loadAddresses k n = m'.loadAddresses k n := by
  induction n generalizing k with
  | zero => rfl
  | succ n ih =>
    simp only [Memory.loadAddresses, Memory.readAddress]
    rw [h k (by omega) (by omega), h (k + 1) (by omega) (by omega), h (k + 2) (by omega) (by omega),
      ih fun j h1 h2 => h j (by omega) (by omega)]

/-- Addresses that were stored load as they are. -/
theorem Memory.loadAddresses_storeAddresses {m : Memory} (h : m.wf = true) (k : Nat) (as : List Address)
    {n : Nat} (hn : n = as.length) : (m.storeAddresses k as).loadAddresses k n = as := by
  subst hn
  induction as generalizing m k with
  | nil => rfl
  | cons a as ih =>
    have hw := Memory.wf_writeAddress h k a
    have hr : ∀ j, j < k + 4 → ((m.writeAddress k a).storeAddresses (k + 4) as).read j = (m.writeAddress k a).read j :=
      fun j hj => Memory.read_storeAddresses_of_ne _ _ _ _ fun i _ => by omega
    have hread := Memory.readAddress_writeAddress h k a
    simp only [Memory.storeAddresses, List.length_cons, Memory.loadAddresses, ih hw]
    simp only [Memory.readAddress] at hread ⊢
    rw [hr k (by omega), hr (k + 1) (by omega), hr (k + 2) (by omega), hread]

theorem Memory.mem_writeAddress {m : Memory} {k : Nat} {a : Address} {c : Host.Cell} (h : c ∈ m.writeAddress k a) :
    c ∈ m ∨ c.1 = k ∨ c.1 = k + 1 ∨ c.1 = k + 2 := by
  rcases Memory.mem_write h with h | ⟨rfl, -⟩
  · rcases Memory.mem_write h with h | ⟨rfl, -⟩
    · rcases Memory.mem_write h with h | ⟨rfl, -⟩
      · exact .inl h
      · exact .inr (.inl rfl)
    · exact .inr (.inr (.inl rfl))
  · exact .inr (.inr (.inr rfl))

theorem Memory.mem_storeAddresses {m : Memory} {k : Nat} {as : List Address} {c : Host.Cell}
    (h : c ∈ m.storeAddresses k as) :
    c ∈ m ∨ ∃ i, i < as.length ∧ (c.1 = k + 4 * i ∨ c.1 = k + 4 * i + 1 ∨ c.1 = k + 4 * i + 2) := by
  induction as generalizing m k with
  | nil => exact .inl h
  | cons a as ih =>
    rcases ih h with h | ⟨i, hi, hc⟩
    · rcases Memory.mem_writeAddress h with h | h
      · exact .inl h
      · exact .inr ⟨0, by simp, by omega⟩
    · exact .inr ⟨i + 1, by simpa using hi, by omega⟩

end Sys2Proof.Machine
end

