-- ==== Sys2Proof/Laws/Encoding.lean ====
section
/-! SUPPORT. The laws of the wire's layouts: the checksum's sum, the three bytes of an Address, the
lengths of command data and packets, and the checksum predicate on a packet. -/

namespace Sys2Proof

theorem sum8_append (a b : List Byte) : sum8 (a ++ b) = sum8 a + sum8 b := by
  induction a with
  | nil => simp [sum8]
  | cons x a ih => simp [sum8, ih, BitVec.add_assoc]

@[simp] theorem be24_length (a : Address) : (be24 a).length = 3 := rfl

theorem flatMap_be24_length (as : List Address) : (as.flatMap be24).length = 3 * as.length := by
  induction as with
  | nil => rfl
  | cons a as ih => simp [ih]; omega

theorem encodeCommand_length (c : Command) : (encodeCommand c).length =
    match c with
    | .readBlock _ _ => 6
    | .readSingleAddresses as => 2 + 3 * as.length
    | .writeBlock _ vs => 4 + vs.length
    | .writeSingleAddress _ _ => 5
    | .initRequest => 1 := by
  cases c with
  | readSingleAddresses as => simp only [encodeCommand, List.length_append, flatMap_be24_length]; rfl
  | writeBlock a vs => simp only [encodeCommand, List.length_append, be24_length]; rfl
  | _ => rfl

/-- The data of a well-formed command is 1 to 255 bytes (rule R85). -/
theorem encodeCommand_bounds {c : Command} (h : c.wf = true) :
    1 ≤ (encodeCommand c).length ∧ (encodeCommand c).length ≤ Config.maxCdata := by
  rw [encodeCommand_length]
  cases c <;> simp only [Command.wf, decide_eq_true_eq, Config.maxAddrs, Config.maxWvals, Config.maxCdata] at h ⊢ <;> omega

@[simp] theorem packetOf_length (d r : Byte) (data : List Byte) : (packetOf d r data).length = data.length + 5 := by
  simp [packetOf]

/-- Reading addresses back from their bytes (rule R86). -/
theorem decodeAddresses_flatMap (as : List Address) : decodeAddresses (as.flatMap be24) = some as := by
  induction as with
  | nil => rfl
  | cons a as ih =>
    show (match decodeAddresses (as.flatMap be24) with
      | some as => some (ofBe24 _ _ _ :: as)
      | none => none) = _
    rw [ih]
    simp [Machine.ofBe24_bytes]

/-- Bytes that are read as addresses are their bytes (rule R86). -/
theorem eq_flatMap_of_decodeAddresses {bs : List Byte} {as : List Address} (h : decodeAddresses bs = some as) :
    bs = as.flatMap be24 := by
  induction as generalizing bs with
  | nil =>
    unfold decodeAddresses at h
    split at h
    · rfl
    · split at h <;> simp at h
    · simp at h
  | cons a as ih =>
    unfold decodeAddresses at h
    split at h
    · simp at h
    · split at h
      · obtain ⟨rfl, rfl⟩ := by simpa using h
        rw [List.flatMap_cons, Machine.be24_ofBe24, ← ih ‹_›]
        rfl
      · simp at h
    · simp at h

/-- A wire command's instruction has its operand limits and its bytes. -/
@[simp] theorem Command.instr_wf (c : Command) : c.instr.wf = c.wf := by cases c <;> rfl

@[simp] theorem Command.encode_instr (c : Command) : encode c.instr = .wire (encodeCommand c) := by cases c <;> rfl

namespace Machine

@[simp] theorem csumOk_nil : csumOk [] = false := rfl

/-- The predicate on a frame with a final byte (rule R113). -/
@[simp] theorem csumOk_concat (p : List Byte) (c : Byte) : csumOk (p ++ [c]) = (sum8 p == c) := by
  simp [csumOk]

/-- Every packet passes the check (rule R114). -/
theorem csumOk_packetOf (d r : Byte) (data : List Byte) : csumOk (packetOf d r data) = true :=
  (csumOk_concat _ _).trans (beq_self_eq_true _)

/-- A frame with a byte in it is all the bytes before its last one, and that one. -/
theorem eq_dropLast_concat {f : List Byte} (h : f ≠ []) : ∃ p c, f = p ++ [c] :=
  ⟨f.dropLast, f.getLast h, (List.dropLast_append_getLast h).symm⟩

end Machine

end Sys2Proof
end

