-- ==== Sys2Proof/Laws/State.lean ====
section
/-! SUPPORT. One lemma per field for each shared state update: what it leaves and what it sets. -/

namespace Sys2Proof.Machine

@[simp] theorem raise_err (e : Err) (s : State) : (raise e s).err = e := rfl
@[simp] theorem raise_csumOk (e : Err) (s : State) : (raise e s).csumOk = s.csumOk := rfl
@[simp] theorem raise_dst (e : Err) (s : State) : (raise e s).dst = s.dst := rfl
@[simp] theorem raise_src (e : Err) (s : State) : (raise e s).src = s.src := rfl
@[simp] theorem raise_addr (e : Err) (s : State) : (raise e s).addr = s.addr := rfl
@[simp] theorem raise_count (e : Err) (s : State) : (raise e s).count = s.count := rfl
@[simp] theorem raise_value (e : Err) (s : State) : (raise e s).value = s.value := rfl
@[simp] theorem raise_naddr (e : Err) (s : State) : (raise e s).naddr = s.naddr := rfl
@[simp] theorem raise_nval (e : Err) (s : State) : (raise e s).nval = s.nval := rfl
@[simp] theorem raise_reqlen (e : Err) (s : State) : (raise e s).reqlen = s.reqlen := rfl
@[simp] theorem raise_replen (e : Err) (s : State) : (raise e s).replen = s.replen := rfl
@[simp] theorem raise_cdlen (e : Err) (s : State) : (raise e s).cdlen = s.cdlen := rfl
@[simp] theorem raise_txlen (e : Err) (s : State) : (raise e s).txlen = s.txlen := rfl
@[simp] theorem raise_echolen (e : Err) (s : State) : (raise e s).echolen = s.echolen := rfl
@[simp] theorem raise_rxcount (e : Err) (s : State) : (raise e s).rxcount = s.rxcount := rfl
@[simp] theorem raise_rplen (e : Err) (s : State) : (raise e s).rplen = s.rplen := rfl
@[simp] theorem raise_mem (e : Err) (s : State) : (raise e s).mem = s.mem := rfl
@[simp] theorem raise_txlog (e : Err) (s : State) : (raise e s).txlog = s.txlog := rfl
@[simp] theorem raise_env (e : Err) (s : State) : (raise e s).env = s.env := rfl
@[simp] theorem raise_host (e : Err) (s : State) : (raise e s).host = s.host := rfl

@[simp] theorem finish_err (s : State) : (finish s).err = .ok := rfl
@[simp] theorem finish_csumOk (s : State) : (finish s).csumOk = s.csumOk := rfl
@[simp] theorem finish_dst (s : State) : (finish s).dst = s.dst := rfl
@[simp] theorem finish_src (s : State) : (finish s).src = s.src := rfl
@[simp] theorem finish_addr (s : State) : (finish s).addr = s.addr := rfl
@[simp] theorem finish_count (s : State) : (finish s).count = s.count := rfl
@[simp] theorem finish_value (s : State) : (finish s).value = s.value := rfl
@[simp] theorem finish_naddr (s : State) : (finish s).naddr = s.naddr := rfl
@[simp] theorem finish_nval (s : State) : (finish s).nval = s.nval := rfl
@[simp] theorem finish_reqlen (s : State) : (finish s).reqlen = s.reqlen := rfl
@[simp] theorem finish_replen (s : State) : (finish s).replen = s.replen := rfl
@[simp] theorem finish_cdlen (s : State) : (finish s).cdlen = s.cdlen := rfl
@[simp] theorem finish_txlen (s : State) : (finish s).txlen = s.txlen := rfl
@[simp] theorem finish_echolen (s : State) : (finish s).echolen = s.echolen := rfl
@[simp] theorem finish_rxcount (s : State) : (finish s).rxcount = s.rxcount := rfl
@[simp] theorem finish_rplen (s : State) : (finish s).rplen = s.rplen := rfl
@[simp] theorem finish_mem (s : State) : (finish s).mem = s.mem := rfl
@[simp] theorem finish_txlog (s : State) : (finish s).txlog = s.txlog := rfl
@[simp] theorem finish_env (s : State) : (finish s).env = s.env := rfl
@[simp] theorem finish_host (s : State) : (finish s).host = s.host := rfl

@[simp] theorem storeIn_err (b : Buf) (bs : List Byte) (s : State) : (storeIn b bs s).err = s.err := rfl
@[simp] theorem storeIn_csumOk (b : Buf) (bs : List Byte) (s : State) : (storeIn b bs s).csumOk = s.csumOk := rfl
@[simp] theorem storeIn_dst (b : Buf) (bs : List Byte) (s : State) : (storeIn b bs s).dst = s.dst := rfl
@[simp] theorem storeIn_src (b : Buf) (bs : List Byte) (s : State) : (storeIn b bs s).src = s.src := rfl
@[simp] theorem storeIn_addr (b : Buf) (bs : List Byte) (s : State) : (storeIn b bs s).addr = s.addr := rfl
@[simp] theorem storeIn_count (b : Buf) (bs : List Byte) (s : State) : (storeIn b bs s).count = s.count := rfl
@[simp] theorem storeIn_value (b : Buf) (bs : List Byte) (s : State) : (storeIn b bs s).value = s.value := rfl
@[simp] theorem storeIn_naddr (b : Buf) (bs : List Byte) (s : State) : (storeIn b bs s).naddr = s.naddr := rfl
@[simp] theorem storeIn_nval (b : Buf) (bs : List Byte) (s : State) : (storeIn b bs s).nval = s.nval := rfl
@[simp] theorem storeIn_reqlen (b : Buf) (bs : List Byte) (s : State) : (storeIn b bs s).reqlen = s.reqlen := rfl
@[simp] theorem storeIn_replen (b : Buf) (bs : List Byte) (s : State) : (storeIn b bs s).replen = s.replen := rfl
@[simp] theorem storeIn_cdlen (b : Buf) (bs : List Byte) (s : State) : (storeIn b bs s).cdlen = s.cdlen := rfl
@[simp] theorem storeIn_txlen (b : Buf) (bs : List Byte) (s : State) : (storeIn b bs s).txlen = s.txlen := rfl
@[simp] theorem storeIn_echolen (b : Buf) (bs : List Byte) (s : State) : (storeIn b bs s).echolen = s.echolen := rfl
@[simp] theorem storeIn_rxcount (b : Buf) (bs : List Byte) (s : State) : (storeIn b bs s).rxcount = s.rxcount := rfl
@[simp] theorem storeIn_rplen (b : Buf) (bs : List Byte) (s : State) : (storeIn b bs s).rplen = s.rplen := rfl
@[simp] theorem storeIn_mem (b : Buf) (bs : List Byte) (s : State) : (storeIn b bs s).mem = s.mem.store b.base bs := rfl
@[simp] theorem storeIn_txlog (b : Buf) (bs : List Byte) (s : State) : (storeIn b bs s).txlog = s.txlog := rfl
@[simp] theorem storeIn_env (b : Buf) (bs : List Byte) (s : State) : (storeIn b bs s).env = s.env := rfl
@[simp] theorem storeIn_host (b : Buf) (bs : List Byte) (s : State) : (storeIn b bs s).host = s.host := rfl

@[simp] theorem noReply_err (e : Err) (s : State) : (noReply e s).err = e := rfl
@[simp] theorem noReply_csumOk (e : Err) (s : State) : (noReply e s).csumOk = s.csumOk := rfl
@[simp] theorem noReply_dst (e : Err) (s : State) : (noReply e s).dst = s.dst := rfl
@[simp] theorem noReply_src (e : Err) (s : State) : (noReply e s).src = s.src := rfl
@[simp] theorem noReply_addr (e : Err) (s : State) : (noReply e s).addr = s.addr := rfl
@[simp] theorem noReply_count (e : Err) (s : State) : (noReply e s).count = s.count := rfl
@[simp] theorem noReply_value (e : Err) (s : State) : (noReply e s).value = s.value := rfl
@[simp] theorem noReply_naddr (e : Err) (s : State) : (noReply e s).naddr = s.naddr := rfl
@[simp] theorem noReply_nval (e : Err) (s : State) : (noReply e s).nval = s.nval := rfl
@[simp] theorem noReply_reqlen (e : Err) (s : State) : (noReply e s).reqlen = s.reqlen := rfl
@[simp] theorem noReply_replen (e : Err) (s : State) : (noReply e s).replen = s.replen := rfl
@[simp] theorem noReply_cdlen (e : Err) (s : State) : (noReply e s).cdlen = s.cdlen := rfl
@[simp] theorem noReply_txlen (e : Err) (s : State) : (noReply e s).txlen = s.txlen := rfl
@[simp] theorem noReply_echolen (e : Err) (s : State) : (noReply e s).echolen = s.echolen := rfl
@[simp] theorem noReply_rxcount (e : Err) (s : State) : (noReply e s).rxcount = s.rxcount := rfl
@[simp] theorem noReply_rplen (e : Err) (s : State) : (noReply e s).rplen = 0 := rfl
@[simp] theorem noReply_mem (e : Err) (s : State) : (noReply e s).mem = s.mem := rfl
@[simp] theorem noReply_txlog (e : Err) (s : State) : (noReply e s).txlog = s.txlog := rfl
@[simp] theorem noReply_env (e : Err) (s : State) : (noReply e s).env = s.env := rfl
@[simp] theorem noReply_host (e : Err) (s : State) : (noReply e s).host = s.host := rfl

@[simp] theorem afterWrite_err (bs : List Byte) (s : State) : (afterWrite bs s).err = s.err := rfl
@[simp] theorem afterWrite_csumOk (bs : List Byte) (s : State) : (afterWrite bs s).csumOk = s.csumOk := rfl
@[simp] theorem afterWrite_dst (bs : List Byte) (s : State) : (afterWrite bs s).dst = s.dst := rfl
@[simp] theorem afterWrite_src (bs : List Byte) (s : State) : (afterWrite bs s).src = s.src := rfl
@[simp] theorem afterWrite_addr (bs : List Byte) (s : State) : (afterWrite bs s).addr = s.addr := rfl
@[simp] theorem afterWrite_count (bs : List Byte) (s : State) : (afterWrite bs s).count = s.count := rfl
@[simp] theorem afterWrite_value (bs : List Byte) (s : State) : (afterWrite bs s).value = s.value := rfl
@[simp] theorem afterWrite_naddr (bs : List Byte) (s : State) : (afterWrite bs s).naddr = s.naddr := rfl
@[simp] theorem afterWrite_nval (bs : List Byte) (s : State) : (afterWrite bs s).nval = s.nval := rfl
@[simp] theorem afterWrite_reqlen (bs : List Byte) (s : State) : (afterWrite bs s).reqlen = s.reqlen := rfl
@[simp] theorem afterWrite_replen (bs : List Byte) (s : State) : (afterWrite bs s).replen = s.replen := rfl
@[simp] theorem afterWrite_cdlen (bs : List Byte) (s : State) : (afterWrite bs s).cdlen = s.cdlen := rfl
@[simp] theorem afterWrite_txlen (bs : List Byte) (s : State) : (afterWrite bs s).txlen = s.txlen := rfl
@[simp] theorem afterWrite_echolen (bs : List Byte) (s : State) : (afterWrite bs s).echolen = s.echolen := rfl
@[simp] theorem afterWrite_rxcount (bs : List Byte) (s : State) : (afterWrite bs s).rxcount = s.rxcount := rfl
@[simp] theorem afterWrite_rplen (bs : List Byte) (s : State) : (afterWrite bs s).rplen = s.rplen := rfl
@[simp] theorem afterWrite_mem (bs : List Byte) (s : State) : (afterWrite bs s).mem = s.mem := rfl
@[simp] theorem afterWrite_txlog (bs : List Byte) (s : State) : (afterWrite bs s).txlog = s.txlog ++ sentBytes bs (nextWrite bs s) := rfl
@[simp] theorem afterWrite_env (bs : List Byte) (s : State) : (afterWrite bs s).env = s.env.afterWrite := rfl
@[simp] theorem afterWrite_host (bs : List Byte) (s : State) : (afterWrite bs s).host = s.host := rfl

@[simp] theorem afterRead_err (s : State) : (afterRead s).err = s.err := rfl
@[simp] theorem afterRead_csumOk (s : State) : (afterRead s).csumOk = s.csumOk := rfl
@[simp] theorem afterRead_dst (s : State) : (afterRead s).dst = s.dst := rfl
@[simp] theorem afterRead_src (s : State) : (afterRead s).src = s.src := rfl
@[simp] theorem afterRead_addr (s : State) : (afterRead s).addr = s.addr := rfl
@[simp] theorem afterRead_count (s : State) : (afterRead s).count = s.count := rfl
@[simp] theorem afterRead_value (s : State) : (afterRead s).value = s.value := rfl
@[simp] theorem afterRead_naddr (s : State) : (afterRead s).naddr = s.naddr := rfl
@[simp] theorem afterRead_nval (s : State) : (afterRead s).nval = s.nval := rfl
@[simp] theorem afterRead_reqlen (s : State) : (afterRead s).reqlen = s.reqlen := rfl
@[simp] theorem afterRead_replen (s : State) : (afterRead s).replen = s.replen := rfl
@[simp] theorem afterRead_cdlen (s : State) : (afterRead s).cdlen = s.cdlen := rfl
@[simp] theorem afterRead_txlen (s : State) : (afterRead s).txlen = s.txlen := rfl
@[simp] theorem afterRead_echolen (s : State) : (afterRead s).echolen = s.echolen := rfl
@[simp] theorem afterRead_rxcount (s : State) : (afterRead s).rxcount = s.rxcount := rfl
@[simp] theorem afterRead_rplen (s : State) : (afterRead s).rplen = s.rplen := rfl
@[simp] theorem afterRead_mem (s : State) : (afterRead s).mem = s.mem := rfl
@[simp] theorem afterRead_txlog (s : State) : (afterRead s).txlog = s.txlog := rfl
@[simp] theorem afterRead_env (s : State) : (afterRead s).env = s.env.afterRead := rfl
@[simp] theorem afterRead_host (s : State) : (afterRead s).host = s.host := rfl

@[simp] theorem continueAt_err (s : State) (ls : List Line) : (s.continueAt ls).err = s.err := rfl
@[simp] theorem continueAt_csumOk (s : State) (ls : List Line) : (s.continueAt ls).csumOk = s.csumOk := rfl
@[simp] theorem continueAt_dst (s : State) (ls : List Line) : (s.continueAt ls).dst = s.dst := rfl
@[simp] theorem continueAt_src (s : State) (ls : List Line) : (s.continueAt ls).src = s.src := rfl
@[simp] theorem continueAt_addr (s : State) (ls : List Line) : (s.continueAt ls).addr = s.addr := rfl
@[simp] theorem continueAt_count (s : State) (ls : List Line) : (s.continueAt ls).count = s.count := rfl
@[simp] theorem continueAt_value (s : State) (ls : List Line) : (s.continueAt ls).value = s.value := rfl
@[simp] theorem continueAt_naddr (s : State) (ls : List Line) : (s.continueAt ls).naddr = s.naddr := rfl
@[simp] theorem continueAt_nval (s : State) (ls : List Line) : (s.continueAt ls).nval = s.nval := rfl
@[simp] theorem continueAt_reqlen (s : State) (ls : List Line) : (s.continueAt ls).reqlen = s.reqlen := rfl
@[simp] theorem continueAt_replen (s : State) (ls : List Line) : (s.continueAt ls).replen = s.replen := rfl
@[simp] theorem continueAt_cdlen (s : State) (ls : List Line) : (s.continueAt ls).cdlen = s.cdlen := rfl
@[simp] theorem continueAt_txlen (s : State) (ls : List Line) : (s.continueAt ls).txlen = s.txlen := rfl
@[simp] theorem continueAt_echolen (s : State) (ls : List Line) : (s.continueAt ls).echolen = s.echolen := rfl
@[simp] theorem continueAt_rxcount (s : State) (ls : List Line) : (s.continueAt ls).rxcount = s.rxcount := rfl
@[simp] theorem continueAt_rplen (s : State) (ls : List Line) : (s.continueAt ls).rplen = s.rplen := rfl
@[simp] theorem continueAt_mem (s : State) (ls : List Line) : (s.continueAt ls).mem = s.mem := rfl
@[simp] theorem continueAt_txlog (s : State) (ls : List Line) : (s.continueAt ls).txlog = s.txlog := rfl
@[simp] theorem continueAt_env (s : State) (ls : List Line) : (s.continueAt ls).env = s.env := rfl
@[simp] theorem continueAt_host (s : State) (ls : List Line) : (s.continueAt ls).host = { s.host with pending := ls } := rfl

@[simp] theorem received_err (b : List Byte) (s : State) : (received b s).err = s.err := rfl
@[simp] theorem received_csumOk (b : List Byte) (s : State) : (received b s).csumOk = s.csumOk := rfl
@[simp] theorem received_dst (b : List Byte) (s : State) : (received b s).dst = s.dst := rfl
@[simp] theorem received_src (b : List Byte) (s : State) : (received b s).src = s.src := rfl
@[simp] theorem received_addr (b : List Byte) (s : State) : (received b s).addr = s.addr := rfl
@[simp] theorem received_count (b : List Byte) (s : State) : (received b s).count = s.count := rfl
@[simp] theorem received_value (b : List Byte) (s : State) : (received b s).value = s.value := rfl
@[simp] theorem received_naddr (b : List Byte) (s : State) : (received b s).naddr = s.naddr := rfl
@[simp] theorem received_nval (b : List Byte) (s : State) : (received b s).nval = s.nval := rfl
@[simp] theorem received_reqlen (b : List Byte) (s : State) : (received b s).reqlen = s.reqlen := rfl
@[simp] theorem received_replen (b : List Byte) (s : State) : (received b s).replen = s.replen := rfl
@[simp] theorem received_cdlen (b : List Byte) (s : State) : (received b s).cdlen = s.cdlen := rfl
@[simp] theorem received_txlen (b : List Byte) (s : State) : (received b s).txlen = s.txlen := rfl
@[simp] theorem received_echolen (b : List Byte) (s : State) : (received b s).echolen = s.echolen := rfl
@[simp] theorem received_rxcount (b : List Byte) (s : State) : (received b s).rxcount = BitVec.ofNat 10 b.length := rfl
@[simp] theorem received_rplen (b : List Byte) (s : State) : (received b s).rplen = s.rplen := rfl
@[simp] theorem received_mem (b : List Byte) (s : State) : (received b s).mem = s.mem.store Buf.rxraw.base b := rfl
@[simp] theorem received_txlog (b : List Byte) (s : State) : (received b s).txlog = s.txlog := rfl
@[simp] theorem received_env (b : List Byte) (s : State) : (received b s).env = s.env := rfl
@[simp] theorem received_host (b : List Byte) (s : State) : (received b s).host = s.host := rfl

@[simp] theorem asked_err (s : State) : (asked s).err = s.err := rfl
@[simp] theorem asked_csumOk (s : State) : (asked s).csumOk = s.csumOk := rfl
@[simp] theorem asked_dst (s : State) : (asked s).dst = s.dst := rfl
@[simp] theorem asked_src (s : State) : (asked s).src = s.src := rfl
@[simp] theorem asked_addr (s : State) : (asked s).addr = s.addr := rfl
@[simp] theorem asked_count (s : State) : (asked s).count = s.count := rfl
@[simp] theorem asked_value (s : State) : (asked s).value = s.value := rfl
@[simp] theorem asked_naddr (s : State) : (asked s).naddr = s.naddr := rfl
@[simp] theorem asked_nval (s : State) : (asked s).nval = s.nval := rfl
@[simp] theorem asked_reqlen (s : State) : (asked s).reqlen = s.reqlen := rfl
@[simp] theorem asked_replen (s : State) : (asked s).replen = s.replen := rfl
@[simp] theorem asked_cdlen (s : State) : (asked s).cdlen = s.cdlen := rfl
@[simp] theorem asked_txlen (s : State) : (asked s).txlen = s.txlen := rfl
@[simp] theorem asked_echolen (s : State) : (asked s).echolen = 0 := rfl
@[simp] theorem asked_rxcount (s : State) : (asked s).rxcount = s.rxcount := rfl
@[simp] theorem asked_rplen (s : State) : (asked s).rplen = s.rplen := rfl
@[simp] theorem asked_mem (s : State) : (asked s).mem = s.mem := rfl
@[simp] theorem asked_txlog (s : State) : (asked s).txlog = s.txlog := rfl
@[simp] theorem asked_env (s : State) : (asked s).env = s.env.afterRead := rfl
@[simp] theorem asked_host (s : State) : (asked s).host = s.host := rfl

@[simp] theorem replied_err (bs : List Byte) (s : State) : (replied bs s).err = .ok := rfl
@[simp] theorem replied_csumOk (bs : List Byte) (s : State) : (replied bs s).csumOk = s.csumOk := rfl
@[simp] theorem replied_dst (bs : List Byte) (s : State) : (replied bs s).dst = s.dst := rfl
@[simp] theorem replied_src (bs : List Byte) (s : State) : (replied bs s).src = s.src := rfl
@[simp] theorem replied_addr (bs : List Byte) (s : State) : (replied bs s).addr = s.addr := rfl
@[simp] theorem replied_count (bs : List Byte) (s : State) : (replied bs s).count = s.count := rfl
@[simp] theorem replied_value (bs : List Byte) (s : State) : (replied bs s).value = s.value := rfl
@[simp] theorem replied_naddr (bs : List Byte) (s : State) : (replied bs s).naddr = s.naddr := rfl
@[simp] theorem replied_nval (bs : List Byte) (s : State) : (replied bs s).nval = s.nval := rfl
@[simp] theorem replied_reqlen (bs : List Byte) (s : State) : (replied bs s).reqlen = s.reqlen := rfl
@[simp] theorem replied_replen (bs : List Byte) (s : State) : (replied bs s).replen = s.replen := rfl
@[simp] theorem replied_cdlen (bs : List Byte) (s : State) : (replied bs s).cdlen = s.cdlen := rfl
@[simp] theorem replied_txlen (bs : List Byte) (s : State) : (replied bs s).txlen = s.txlen := rfl
@[simp] theorem replied_echolen (bs : List Byte) (s : State) : (replied bs s).echolen = s.echolen := rfl
@[simp] theorem replied_rxcount (bs : List Byte) (s : State) : (replied bs s).rxcount = s.rxcount := rfl
@[simp] theorem replied_rplen (bs : List Byte) (s : State) : (replied bs s).rplen = BitVec.ofNat 10 bs.length := rfl
@[simp] theorem replied_mem (bs : List Byte) (s : State) : (replied bs s).mem = s.mem.store Buf.reply.base bs := rfl
@[simp] theorem replied_txlog (bs : List Byte) (s : State) : (replied bs s).txlog = s.txlog := rfl
@[simp] theorem replied_env (bs : List Byte) (s : State) : (replied bs s).env = s.env := rfl
@[simp] theorem replied_host (bs : List Byte) (s : State) : (replied bs s).host = s.host := rfl

@[simp] theorem encoded_err (c : Command) (s : State) : (encoded c s).err = .ok := rfl
@[simp] theorem encoded_csumOk (c : Command) (s : State) : (encoded c s).csumOk = s.csumOk := rfl
@[simp] theorem encoded_dst (c : Command) (s : State) : (encoded c s).dst = s.dst := rfl
@[simp] theorem encoded_src (c : Command) (s : State) : (encoded c s).src = s.src := rfl
@[simp] theorem encoded_addr (c : Command) (s : State) : (encoded c s).addr = s.addr := rfl
@[simp] theorem encoded_count (c : Command) (s : State) : (encoded c s).count = s.count := rfl
@[simp] theorem encoded_value (c : Command) (s : State) : (encoded c s).value = s.value := rfl
@[simp] theorem encoded_naddr (c : Command) (s : State) : (encoded c s).naddr = s.naddr := rfl
@[simp] theorem encoded_nval (c : Command) (s : State) : (encoded c s).nval = s.nval := rfl
@[simp] theorem encoded_reqlen (c : Command) (s : State) : (encoded c s).reqlen = s.reqlen := rfl
@[simp] theorem encoded_replen (c : Command) (s : State) : (encoded c s).replen = s.replen := rfl
@[simp] theorem encoded_cdlen (c : Command) (s : State) : (encoded c s).cdlen = BitVec.ofNat 8 (encodeCommand c).length := rfl
@[simp] theorem encoded_txlen (c : Command) (s : State) : (encoded c s).txlen = s.txlen := rfl
@[simp] theorem encoded_echolen (c : Command) (s : State) : (encoded c s).echolen = s.echolen := rfl
@[simp] theorem encoded_rxcount (c : Command) (s : State) : (encoded c s).rxcount = s.rxcount := rfl
@[simp] theorem encoded_rplen (c : Command) (s : State) : (encoded c s).rplen = s.rplen := rfl
@[simp] theorem encoded_mem (c : Command) (s : State) : (encoded c s).mem = s.mem.store Buf.cdata.base (encodeCommand c) := rfl
@[simp] theorem encoded_txlog (c : Command) (s : State) : (encoded c s).txlog = s.txlog := rfl
@[simp] theorem encoded_env (c : Command) (s : State) : (encoded c s).env = s.env := rfl
@[simp] theorem encoded_host (c : Command) (s : State) : (encoded c s).host = s.host := rfl

@[simp] theorem notEncoded_err (s : State) : (notEncoded s).err = .invalidArgument := rfl
@[simp] theorem notEncoded_csumOk (s : State) : (notEncoded s).csumOk = s.csumOk := rfl
@[simp] theorem notEncoded_dst (s : State) : (notEncoded s).dst = s.dst := rfl
@[simp] theorem notEncoded_src (s : State) : (notEncoded s).src = s.src := rfl
@[simp] theorem notEncoded_addr (s : State) : (notEncoded s).addr = s.addr := rfl
@[simp] theorem notEncoded_count (s : State) : (notEncoded s).count = s.count := rfl
@[simp] theorem notEncoded_value (s : State) : (notEncoded s).value = s.value := rfl
@[simp] theorem notEncoded_naddr (s : State) : (notEncoded s).naddr = s.naddr := rfl
@[simp] theorem notEncoded_nval (s : State) : (notEncoded s).nval = s.nval := rfl
@[simp] theorem notEncoded_reqlen (s : State) : (notEncoded s).reqlen = s.reqlen := rfl
@[simp] theorem notEncoded_replen (s : State) : (notEncoded s).replen = s.replen := rfl
@[simp] theorem notEncoded_cdlen (s : State) : (notEncoded s).cdlen = 0 := rfl
@[simp] theorem notEncoded_txlen (s : State) : (notEncoded s).txlen = s.txlen := rfl
@[simp] theorem notEncoded_echolen (s : State) : (notEncoded s).echolen = s.echolen := rfl
@[simp] theorem notEncoded_rxcount (s : State) : (notEncoded s).rxcount = s.rxcount := rfl
@[simp] theorem notEncoded_rplen (s : State) : (notEncoded s).rplen = s.rplen := rfl
@[simp] theorem notEncoded_mem (s : State) : (notEncoded s).mem = s.mem := rfl
@[simp] theorem notEncoded_txlog (s : State) : (notEncoded s).txlog = s.txlog := rfl
@[simp] theorem notEncoded_env (s : State) : (notEncoded s).env = s.env := rfl
@[simp] theorem notEncoded_host (s : State) : (notEncoded s).host = s.host := rfl

@[simp] theorem framed_err (s : State) : (framed s).err = .ok := rfl
@[simp] theorem framed_csumOk (s : State) : (framed s).csumOk = s.csumOk := rfl
@[simp] theorem framed_dst (s : State) : (framed s).dst = s.dst := rfl
@[simp] theorem framed_src (s : State) : (framed s).src = s.src := rfl
@[simp] theorem framed_addr (s : State) : (framed s).addr = s.addr := rfl
@[simp] theorem framed_count (s : State) : (framed s).count = s.count := rfl
@[simp] theorem framed_value (s : State) : (framed s).value = s.value := rfl
@[simp] theorem framed_naddr (s : State) : (framed s).naddr = s.naddr := rfl
@[simp] theorem framed_nval (s : State) : (framed s).nval = s.nval := rfl
@[simp] theorem framed_reqlen (s : State) : (framed s).reqlen = s.reqlen := rfl
@[simp] theorem framed_replen (s : State) : (framed s).replen = s.replen := rfl
@[simp] theorem framed_cdlen (s : State) : (framed s).cdlen = s.cdlen := rfl
@[simp] theorem framed_txlen (s : State) : (framed s).txlen = BitVec.ofNat 9 (s.cdlen.toNat + 5) := rfl
@[simp] theorem framed_echolen (s : State) : (framed s).echolen = s.echolen := rfl
@[simp] theorem framed_rxcount (s : State) : (framed s).rxcount = s.rxcount := rfl
@[simp] theorem framed_rplen (s : State) : (framed s).rplen = s.rplen := rfl
@[simp] theorem framed_mem (s : State) : (framed s).mem = s.mem.store Buf.txbuf.base (packetOf s.dst s.src s.command) := rfl
@[simp] theorem framed_txlog (s : State) : (framed s).txlog = s.txlog := rfl
@[simp] theorem framed_env (s : State) : (framed s).env = s.env := rfl
@[simp] theorem framed_host (s : State) : (framed s).host = s.host := rfl

@[simp] theorem notFramed_err (s : State) : (notFramed s).err = .invalidArgument := rfl
@[simp] theorem notFramed_csumOk (s : State) : (notFramed s).csumOk = s.csumOk := rfl
@[simp] theorem notFramed_dst (s : State) : (notFramed s).dst = s.dst := rfl
@[simp] theorem notFramed_src (s : State) : (notFramed s).src = s.src := rfl
@[simp] theorem notFramed_addr (s : State) : (notFramed s).addr = s.addr := rfl
@[simp] theorem notFramed_count (s : State) : (notFramed s).count = s.count := rfl
@[simp] theorem notFramed_value (s : State) : (notFramed s).value = s.value := rfl
@[simp] theorem notFramed_naddr (s : State) : (notFramed s).naddr = s.naddr := rfl
@[simp] theorem notFramed_nval (s : State) : (notFramed s).nval = s.nval := rfl
@[simp] theorem notFramed_reqlen (s : State) : (notFramed s).reqlen = s.reqlen := rfl
@[simp] theorem notFramed_replen (s : State) : (notFramed s).replen = s.replen := rfl
@[simp] theorem notFramed_cdlen (s : State) : (notFramed s).cdlen = s.cdlen := rfl
@[simp] theorem notFramed_txlen (s : State) : (notFramed s).txlen = 0 := rfl
@[simp] theorem notFramed_echolen (s : State) : (notFramed s).echolen = s.echolen := rfl
@[simp] theorem notFramed_rxcount (s : State) : (notFramed s).rxcount = s.rxcount := rfl
@[simp] theorem notFramed_rplen (s : State) : (notFramed s).rplen = s.rplen := rfl
@[simp] theorem notFramed_mem (s : State) : (notFramed s).mem = s.mem := rfl
@[simp] theorem notFramed_txlog (s : State) : (notFramed s).txlog = s.txlog := rfl
@[simp] theorem notFramed_env (s : State) : (notFramed s).env = s.env := rfl
@[simp] theorem notFramed_host (s : State) : (notFramed s).host = s.host := rfl

@[simp] theorem blockReset_err (s : State) : (blockReset s).err = State.reset.err := rfl
@[simp] theorem blockReset_csumOk (s : State) : (blockReset s).csumOk = State.reset.csumOk := rfl
@[simp] theorem blockReset_dst (s : State) : (blockReset s).dst = State.reset.dst := rfl
@[simp] theorem blockReset_src (s : State) : (blockReset s).src = State.reset.src := rfl
@[simp] theorem blockReset_addr (s : State) : (blockReset s).addr = State.reset.addr := rfl
@[simp] theorem blockReset_count (s : State) : (blockReset s).count = State.reset.count := rfl
@[simp] theorem blockReset_value (s : State) : (blockReset s).value = State.reset.value := rfl
@[simp] theorem blockReset_naddr (s : State) : (blockReset s).naddr = State.reset.naddr := rfl
@[simp] theorem blockReset_nval (s : State) : (blockReset s).nval = State.reset.nval := rfl
@[simp] theorem blockReset_reqlen (s : State) : (blockReset s).reqlen = State.reset.reqlen := rfl
@[simp] theorem blockReset_replen (s : State) : (blockReset s).replen = State.reset.replen := rfl
@[simp] theorem blockReset_cdlen (s : State) : (blockReset s).cdlen = State.reset.cdlen := rfl
@[simp] theorem blockReset_txlen (s : State) : (blockReset s).txlen = State.reset.txlen := rfl
@[simp] theorem blockReset_echolen (s : State) : (blockReset s).echolen = State.reset.echolen := rfl
@[simp] theorem blockReset_rxcount (s : State) : (blockReset s).rxcount = State.reset.rxcount := rfl
@[simp] theorem blockReset_rplen (s : State) : (blockReset s).rplen = State.reset.rplen := rfl
@[simp] theorem blockReset_mem (s : State) : (blockReset s).mem = State.reset.mem := rfl
@[simp] theorem blockReset_txlog (s : State) : (blockReset s).txlog = s.txlog := rfl
@[simp] theorem blockReset_env (s : State) : (blockReset s).env = s.env := rfl
@[simp] theorem blockReset_host (s : State) : (blockReset s).host = s.host := rfl

end Sys2Proof.Machine
end

