-- ==== Sys2Proof/Laws/Ops.lean ====
section
/-! SUPPORT. What the shared operations do, once for each: what a stored sequence is read back as, that
buffers do not overlap, and what one step comes to. -/

namespace Sys2Proof.Machine

/-! Buffers do not overlap (rules R29, R60). -/

/-- The elements of two different buffers are at different offsets. -/
theorem Buf.elemAddr_ne {b b' : Buf} (h : b ≠ b') {i j : Nat} (hi : i < b.size) (hj : j < b'.size) :
    b.elemAddr i ≠ b'.elemAddr j := by
  cases b <;> cases b' <;> simp [Buf.elemAddr, Buf.base, Buf.size] at h hi hj ⊢ <;> omega

/-- Storing within one buffer leaves the elements of another as they were. -/
theorem load_storeIn_ne {b b' : Buf} (h : b ≠ b') {bs : List Byte} {n : Nat} (s : State)
    (hbs : bs.length ≤ b.size) (hn : n ≤ b'.size) : (storeIn b bs s).mem.load b'.base n = s.mem.load b'.base n :=
  Memory.load_store_of_ne _ _ _ _ _ fun i j hi hj =>
    (Buf.elemAddr_ne h (i := i) (j := j) (by omega) (by omega)).symm

/-- What is stored in a buffer is what it then holds. -/
theorem load_storeIn {b : Buf} {bs : List Byte} {n : Nat} (s : State) (h : s.mem.wf = true) (hn : n = bs.length) :
    (storeIn b bs s).mem.load b.base n = bs :=
  Memory.load_store h _ _ hn

/-- A store in a buffer leaves every offset that is none of the stored elements'. -/
theorem read_storeIn_of_ne (b : Buf) (bs : List Byte) (s : State) (k : Nat)
    (hk : ∀ i, i < bs.length → k ≠ b.elemAddr i) : (storeIn b bs s).mem.read k = s.mem.read k :=
  Memory.read_store_of_ne _ _ _ _ hk

/-- Element `i < size` of a one-byte buffer is a mapped offset. -/
theorem mapped_elem (b : Buf) {i : Nat} (hi : i < b.size) : Memory.mapped (b.elemAddr i) = true := by
  have h : b.stores (b.elemAddr i) = true := by
    simp only [Buf.stores, decide_eq_true_eq]
    cases b <;> simp [Buf.elemAddr, Buf.base, Buf.size, Buf.elemBytes] at hi ⊢ <;> omega
  simp only [Memory.mapped, List.any_eq_true]
  exact ⟨b, by cases b <;> simp [Buf.all], h⟩

/-- A store within a one-byte buffer keeps every cell mapped. -/
theorem mapped_storeIn {b : Buf} {bs : List Byte} {s : State} (h : ∀ c ∈ s.mem, Memory.mapped c.1 = true)
    (hbs : bs.length ≤ b.size) : ∀ c ∈ (storeIn b bs s).mem, Memory.mapped c.1 = true := by
  intro c hc
  rcases Memory.mem_store hc with hc | ⟨i, hi, hk⟩
  · exact h c hc
  · have := mapped_elem b (i := i) (by omega)
    simpa [Buf.elemAddr, hk] using this

/-! The operations on the packet and the command. -/

/-- FRAME with a command: the packet of DST, SRC and the command data (rule R110). -/
theorem packet_framed {s : State} (h : s.mem.wf = true) : (framed s).packet = packetOf s.dst s.src s.command := by
  have hl : s.command.length = s.cdlen.toNat := Memory.length_load _ _ _
  have hlt : s.cdlen.toNat + 5 < 2 ^ 9 := by omega
  refine load_storeIn (b := .txbuf) s h ?_
  simp only [framed, finish_txlen, packetOf_length, hl, BitVec.toNat_ofNat]
  exact Nat.mod_eq_of_lt hlt

theorem txlen_framed (s : State) : (framed s).txlen.toNat = s.cdlen.toNat + 5 := by
  simp only [framed, finish_txlen, BitVec.toNat_ofNat]
  omega

/-- A successful ENC leaves the data of its command in CDATA (rule R30). -/
theorem command_encoded {c : Command} (hc : c.wf = true) {s : State} (h : s.mem.wf = true) :
    (encoded c s).command = encodeCommand c := by
  refine load_storeIn (b := .cdata) s h ?_
  have := (encodeCommand_bounds hc).2
  simp only [encoded, finish_cdlen, BitVec.toNat_ofNat]
  simp only [Config.maxCdata] at this
  omega

theorem cdlen_encoded {c : Command} (hc : c.wf = true) (s : State) :
    (encoded c s).cdlen.toNat = (encodeCommand c).length := by
  have := (encodeCommand_bounds hc).2
  simp only [encoded, finish_cdlen, BitVec.toNat_ofNat]
  simp only [Config.maxCdata] at this
  omega

/-! The transport. -/

/-- A read answers at most as many bytes as were asked for (rule R182). -/
theorem nextRead_length {need : Nat} {s : State} {b : List Byte} (h : nextRead need s = .bytes b) : b.length ≤ need := by
  have cut : ∀ a : ReadAnswer, ReadAnswer.cut need a = .bytes b → b.length ≤ need := fun a ha => by
    cases a with
    | ioError => simp [ReadAnswer.cut] at ha
    | bytes c =>
      obtain rfl : c.take need = b := by simpa [ReadAnswer.cut] using ha
      simp
  unfold nextRead at h
  split at h <;> exact cut _ h

/-- A scripted read answer, of a length the transport may give. -/
theorem nextRead_script {need : Nat} {s : State} {b : List Byte} {rest : List ReadAnswer}
    (h : s.env.reads = .bytes b :: rest) (hb : b.length ≤ need) : nextRead need s = .bytes b := by
  simp [nextRead, h, ReadAnswer.cut, List.take_of_length_le hb]

/-! One step. -/

@[simp] theorem carryOut_done (s : State) : carryOut (.done s) = .next s := rfl
@[simp] theorem carryOut_issue (i : Instr) (s : State) : carryOut (.issue i s) = exec i s := rfl
@[simp] theorem carryOut_fault (f : Fault) : carryOut (.fault f) = .fault f := rfl

@[simp] theorem expandTo_eq (s : State) (ls : List Line) : s.expandTo ls = s.continueAt (ls ++ s.host.pending) := rfl

/-- A step whose host has a line left is that line's. -/
theorem step_of_pending {s : State} {l : Line} {rest : List Line} (h : s.host.pending = l :: rest) :
    step s = carryOut (runLine l (s.continueAt rest)) := by
  rw [step, fetch, h]

/-- A step whose host has no line left changes nothing. -/
theorem step_of_idle {s : State} (h : s.host.pending = []) : step s = .next s := by
  rw [step, fetch, h]
  rfl

/-- The line that hands over a code comes to what `issue` says of it. -/
theorem runLine_codeLine (c : Code) (s : State) : runLine (codeLine c) s = issue c s := by
  cases c <;> rfl

/-- Every instruction has a meaning that answers a next state. -/
theorem exec_next (i : Instr) (s : State) : ∃ t, exec i s = .next t := by
  cases i <;> exact ⟨_, rfl⟩

end Sys2Proof.Machine
end

