-- ==== Sys2Proof/Laws/Instr.lean ====
section
/-! SUPPORT. What each operation can do, said once: its cases, each with its condition and the state it
ends in. Provers cite these instead of unfolding the operations. -/

namespace Sys2Proof.Machine

theorem BitVec_pos_of_ne {n : Nat} {x : BitVec n} (h : x ≠ 0) : 1 ≤ x.toNat := by
  rcases Nat.eq_zero_or_pos x.toNat with h0 | h0
  · exact absurd (BitVec.eq_of_toNat_eq (by simpa using h0)) h
  · exact h0

@[simp] theorem command_length (s : State) : s.command.length = s.cdlen.toNat := Memory.length_load _ _ _
@[simp] theorem packet_length (s : State) : s.packet.length = s.txlen.toNat := Memory.length_load _ _ _
@[simp] theorem raw_length (s : State) : s.raw.length = s.rxcount.toNat := Memory.length_load _ _ _
@[simp] theorem replyBytes_length (s : State) : s.replyBytes.length = s.rplen.toNat := Memory.length_load _ _ _
@[simp] theorem values_length (s : State) : s.values.length = s.nval.toNat := Memory.length_load _ _ _
@[simp] theorem addresses_length (s : State) : s.addresses.length = s.naddr.toNat := Memory.length_loadAddresses _ _ _

/-! FRAME (rules R110, R111). -/

theorem frameOp_cases (s : State) :
    (s.cdlen = 0 ∧ frameOp s = notFramed s) ∨ (s.cdlen ≠ 0 ∧ frameOp s = framed s) := by
  by_cases h : s.cdlen = 0
  · exact .inl ⟨h, if_pos h⟩
  · exact .inr ⟨h, if_neg h⟩

/-! The encoder (rules R131 to R136): every ENC either fails or leaves a well-formed command. -/

theorem encRdblkOp_cases (s : State) :
    ((s.count = 0 ∨ 256 < s.count.toNat) ∧ encRdblkOp s = notEncoded s) ∨
    (1 ≤ s.count.toNat ∧ s.count.toNat ≤ 256 ∧
      encRdblkOp s = encoded (.readBlock s.addr (BitVec.ofNat 8 (s.count.toNat - 1))) s) := by
  by_cases h : s.count = 0 ∨ 256 < s.count.toNat
  · exact .inl ⟨h, if_pos h⟩
  · simp only [not_or, Nat.not_lt] at h
    exact .inr ⟨BitVec_pos_of_ne h.1, h.2, if_neg (by simpa using h)⟩

theorem encRdaddrOp_cases (s : State) :
    ((s.naddr = 0 ∨ 84 < s.naddr.toNat) ∧ encRdaddrOp s = notEncoded s) ∨
    (1 ≤ s.naddr.toNat ∧ s.naddr.toNat ≤ 84 ∧ (Command.readSingleAddresses s.addresses).wf = true ∧
      encRdaddrOp s = encoded (.readSingleAddresses s.addresses) s) := by
  by_cases h : s.naddr = 0 ∨ 84 < s.naddr.toNat
  · exact .inl ⟨h, if_pos h⟩
  · simp only [not_or, Nat.not_lt] at h
    have h1 := BitVec_pos_of_ne h.1
    exact .inr ⟨h1, h.2, by simp [Command.wf, h1, h.2], if_neg (by simpa using h)⟩

theorem encWrblkOp_cases (s : State) :
    ((s.nval = 0 ∨ 251 < s.nval.toNat) ∧ encWrblkOp s = notEncoded s) ∨
    (1 ≤ s.nval.toNat ∧ s.nval.toNat ≤ 251 ∧ (Command.writeBlock s.addr s.values).wf = true ∧
      encWrblkOp s = encoded (.writeBlock s.addr s.values) s) := by
  by_cases h : s.nval = 0 ∨ 251 < s.nval.toNat
  · exact .inl ⟨h, if_pos h⟩
  · simp only [not_or, Nat.not_lt] at h
    have h1 := BitVec_pos_of_ne h.1
    exact .inr ⟨h1, h.2, by simp [Command.wf, h1, h.2], if_neg (by simpa using h)⟩

/-! The parser (rules R160, R165, R166). -/

theorem parseOp_cases (s : State) :
    (520 < s.rxcount.toNat ∧ parseOp s = noReply .invalidArgument s) ∨
    (s.rxcount.toNat ≤ 520 ∧ s.rxcount.toNat < s.reqlen.toNat ∧ parseOp s = noReply .truncatedFrame s) ∨
    (s.rxcount.toNat ≤ 520 ∧ s.reqlen.toNat ≤ s.rxcount.toNat ∧
      parseOp s = replied (s.raw.drop s.reqlen.toNat) s) := by
  by_cases h : 520 < s.rxcount.toNat
  · exact .inl ⟨h, if_pos h⟩
  · by_cases h' : s.rxcount.toNat < s.reqlen.toNat
    · exact .inr (.inl ⟨Nat.not_lt.1 h, h', (if_neg h).trans (if_pos h')⟩)
    · exact .inr (.inr ⟨Nat.not_lt.1 h, Nat.not_lt.1 h', (if_neg h).trans (if_neg h')⟩)

theorem verifyOp_cases (f : List Byte) (s : State) :
    (csumOk f = true ∧ verifyOp f s = { s with csumOk := true, err := .ok }) ∨
    (csumOk f = false ∧ verifyOp f s = { s with csumOk := false, err := .checksumMismatch }) := by
  cases h : csumOk f
  · exact .inr ⟨rfl, if_neg (by simp [h])⟩
  · exact .inl ⟨rfl, if_pos h⟩

/-! The link (rules R180, R181). -/

theorem sendOp_cases (s : State) :
    (s.echolen ≠ 0 ∧ sendOp s = raise .sequenceError s) ∨
    (s.echolen = 0 ∧ s.txlen = 0 ∧ sendOp s = raise .invalidArgument s) ∨
    (s.echolen = 0 ∧ s.txlen ≠ 0 ∧ nextWrite s.packet s = .ok ∧
      sendOp s = finish { afterWrite s.packet s with echolen := s.txlen }) ∨
    (s.echolen = 0 ∧ s.txlen ≠ 0 ∧ ∃ n, nextWrite s.packet s = .ioError n ∧
      sendOp s = raise .transportError { afterWrite s.packet s with echolen := 0 }) := by
  by_cases h : s.echolen = 0
  · refine .inr ?_
    by_cases h' : s.txlen = 0
    · exact .inl ⟨h, h', (if_neg (not_not.2 h)).trans (if_pos h')⟩
    · refine .inr ?_
      have hs : sendOp s = sendResult (nextWrite s.packet s) (afterWrite s.packet s) :=
        (if_neg (not_not.2 h)).trans (if_neg h')
      cases ha : nextWrite s.packet s with
      | ok => exact .inl ⟨h, h', rfl, by rw [hs, ha]; rfl⟩
      | ioError n => exact .inr ⟨h, h', n, rfl, by rw [hs, ha]; rfl⟩
  · exact .inl ⟨h, if_pos h⟩

theorem recvBytes_cases (e n : Nat) (b : List Byte) (s : State) :
    (b.length = 0 ∧ recvBytes e n b s = noReply .noResponse { s with csumOk := false }) ∨
    (0 < b.length ∧ b.length < e + n ∧ recvBytes e n b s = noReply .truncatedFrame { s with csumOk := false }) ∨
    (0 < b.length ∧ e + n ≤ b.length ∧ csumOk (b.drop e) = false ∧
      recvBytes e n b s = noReply .checksumMismatch { s with csumOk := false }) ∨
    (0 < b.length ∧ e + n ≤ b.length ∧ csumOk (b.drop e) = true ∧
      recvBytes e n b s = replied (b.drop e) { s with csumOk := true }) := by
  unfold recvBytes
  by_cases h : b.length = 0
  · exact .inl ⟨h, if_pos h⟩
  · have h0 := Nat.pos_of_ne_zero h
    rw [if_neg h]
    by_cases h' : b.length < e + n
    · exact .inr (.inl ⟨h0, h', if_pos h'⟩)
    · rw [if_neg h']
      have h'' := Nat.not_lt.1 h'
      cases hc : csumOk (b.drop e)
      · exact .inr (.inr (.inl ⟨h0, h'', rfl, if_neg (by simp)⟩))
      · exact .inr (.inr (.inr ⟨h0, h'', rfl, if_pos rfl⟩))

theorem recvOp_cases (s : State) :
    ((s.replen = 0 ∨ 260 < s.replen.toNat) ∧ recvOp s = noReply .invalidArgument s) ∨
    (1 ≤ s.replen.toNat ∧ s.replen.toNat ≤ 260 ∧
      ((nextRead (s.echolen.toNat + s.replen.toNat) s = .ioError ∧
        recvOp s = noReply .transportError { asked s with rxcount := 0, csumOk := false }) ∨
      ∃ b, nextRead (s.echolen.toNat + s.replen.toNat) s = .bytes b ∧ b.length ≤ s.echolen.toNat + s.replen.toNat ∧
        recvOp s = recvBytes s.echolen.toNat s.replen.toNat b (received b (asked s)))) := by
  by_cases h : s.replen = 0 ∨ 260 < s.replen.toNat
  · exact .inl ⟨h, if_pos h⟩
  · have hs : recvOp s = recvResult s.echolen.toNat s.replen.toNat
        (nextRead (s.echolen.toNat + s.replen.toNat) s) (asked s) := if_neg h
    simp only [not_or, Nat.not_lt] at h
    refine .inr ⟨BitVec_pos_of_ne h.1, h.2, ?_⟩
    cases ha : nextRead (s.echolen.toNat + s.replen.toNat) s with
    | ioError => exact .inl ⟨rfl, by rw [hs, ha]; rfl⟩
    | bytes b => exact .inr ⟨b, rfl, nextRead_length ha, by rw [hs, ha]; rfl⟩

/-! Frames: what an operation can change at all. -/

theorem frameOp_frame (s : State) :
    frameOp s = { s with mem := (frameOp s).mem, txlen := (frameOp s).txlen, err := (frameOp s).err } := by
  rcases frameOp_cases s with ⟨-, h⟩ | ⟨-, h⟩ <;> rw [h] <;> rfl

theorem replied_frame (bs : List Byte) (s : State) :
    replied bs s = { s with mem := (replied bs s).mem, rplen := (replied bs s).rplen, err := .ok } := rfl

theorem received_frame (b : List Byte) (s : State) :
    received b s = { s with mem := (received b s).mem, rxcount := (received b s).rxcount } := rfl

/-- What a RECV that delivers a reply changes (rule R181). -/
theorem recv_success_frame (e : Nat) (b : List Byte) {s u : State}
    (hu : u = replied (b.drop e) { received b (asked s) with csumOk := true }) :
    u = { s with mem := u.mem, rxcount := u.rxcount, rplen := u.rplen, csumOk := true, echolen := 0, err := .ok,
                 env := s.env.afterRead } := by
  rw [replied_frame, received_frame] at hu
  rw [hu]
  rfl

/-- RXRAW holds all the bytes that came, also where ECHOLEN + REPLEN exceeds its size (rules R33, R181). -/
theorem raw_received {b : List Byte} (hb : b.length ≤ 771) {s : State} (hw : s.mem.wf = true) :
    (received b s).raw = b := by
  refine load_storeIn (b := .rxraw) s hw ?_
  simp only [received, BitVec.toNat_ofNat]
  omega

/-- What comes from a read of at most 511 + 260 bytes reaches no element of REPLY. -/
theorem read_reply_received {b : List Byte} (hb : b.length ≤ 771) (s : State) (j : Nat) :
    (received b s).mem.read (Buf.reply.elemAddr j) = s.mem.read (Buf.reply.elemAddr j) := by
  refine Memory.read_store_of_ne _ _ _ _ fun i hi => ?_
  simp only [Buf.elemAddr, Buf.base]
  omega

/-- What a RECV that raises an error over the bytes that came changes (rule R181). -/
theorem recv_error_frame {e : Err} {b : List Byte} {s u : State}
    (hu : u = noReply e { received b (asked s) with csumOk := false }) :
    u = { s with mem := u.mem, rxcount := u.rxcount, rplen := 0, csumOk := false, echolen := 0, err := e,
                 env := s.env.afterRead } := by
  rw [received_frame] at hu
  rw [hu]
  rfl

/-- What a RECV can change at all (rule R181). -/
theorem recvOp_frame {s u : State} (hu : u = recvOp s) :
    u = { s with mem := u.mem, rxcount := u.rxcount, rplen := u.rplen, csumOk := u.csumOk, echolen := u.echolen,
                 err := u.err, env := u.env } := by
  rcases recvOp_cases s with ⟨-, h⟩ | ⟨-, -, ⟨-, h⟩ | ⟨b, -, -, h⟩⟩
  · rw [hu, h]
    rfl
  · rw [hu, h]
    rfl
  · rcases recvBytes_cases s.echolen.toNat s.replen.toNat b (received b (asked s)) with
      ⟨-, h'⟩ | ⟨-, -, h'⟩ | ⟨-, -, -, h'⟩ | ⟨-, -, -, h'⟩
    case inr.inr.inr =>
      have hf := recv_success_frame _ b (hu.trans (h.trans h'))
      apply State.ext <;> first | rfl | (rw [hf])
    all_goals
      have hf := recv_error_frame (hu.trans (h.trans h'))
      apply State.ext <;> first | rfl | (rw [hf])

/-- What a SEND can change at all (rule R180). -/
theorem sendOp_frame (s : State) :
    sendOp s = { s with echolen := (sendOp s).echolen, err := (sendOp s).err, txlog := (sendOp s).txlog,
                        env := (sendOp s).env } := by
  rcases sendOp_cases s with ⟨-, h⟩ | ⟨-, -, h⟩ | ⟨-, -, -, h⟩ | ⟨-, -, n, -, h⟩ <;> rw [h] <;> rfl

/-! No operation looks at the host: what it does is the same whatever lines the host has left. -/

theorem frameOp_host (s : State) (h : HostAgent) : frameOp { s with host := h } = { frameOp s with host := h } := by
  simp only [frameOp, apply_ite (fun x : State => ({ x with host := h } : State))]
  rfl

theorem sendOp_host (s : State) (h : HostAgent) : sendOp { s with host := h } = { sendOp s with host := h } := by
  have hp : State.packet { s with host := h } = s.packet := rfl
  have hn : nextWrite s.packet { s with host := h } = nextWrite s.packet s := rfl
  simp only [sendOp, hp, hn]
  split
  · rfl
  · split
    · rfl
    · cases nextWrite s.packet s <;> rfl

theorem recvOp_host (s : State) (h : HostAgent) : recvOp { s with host := h } = { recvOp s with host := h } := by
  have hn (n : Nat) : nextRead n { s with host := h } = nextRead n s := rfl
  simp only [recvOp, hn]
  split
  · rfl
  · cases nextRead _ s with
    | ioError => rfl
    | bytes b =>
      simp only [recvResult, recvBytes]
      split
      · rfl
      · split
        · rfl
        · split <;> rfl

end Sys2Proof.Machine
end

