-- ==== Sys2Proof/Laws/PerInstr.lean ====
section
/-! SUPPORT. The family `EncodedForm`: the form of each instruction's code. An operation word fits in its
low five bits (rules R80, R81); a wire row is 1 to 260 bytes (rules R84 to R86). -/

namespace Sys2Proof

/-- The form of a code. -/
def Code.formOk : Code → Bool
  | .opWord w => decide (w.toNat < 32)
  | .wire bs => decide (1 ≤ bs.length ∧ bs.length ≤ Config.maxTx)

/-- A well-formed instruction's code has the form of its kind. -/
def Laws.EncodedForm.Statement (i : Instr) : Prop := i.wf = true → (encode i).formOk = true

theorem formOk_command {c : Command} (h : c.wf = true) : (Code.wire (encodeCommand c)).formOk = true := by
  obtain ⟨h1, h2⟩ := encodeCommand_bounds h
  exact decide_eq_true ⟨h1, Nat.le_trans h2 (by decide)⟩

namespace Laws

theorem EncodedForm.nop : EncodedForm.Statement .nop := fun _ => by decide
theorem EncodedForm.frame : EncodedForm.Statement .frame := fun _ => by decide
theorem EncodedForm.encRdblk : EncodedForm.Statement .encRdblk := fun _ => by decide
theorem EncodedForm.encRdaddr : EncodedForm.Statement .encRdaddr := fun _ => by decide
theorem EncodedForm.encWrblk : EncodedForm.Statement .encWrblk := fun _ => by decide
theorem EncodedForm.encWraddr : EncodedForm.Statement .encWraddr := fun _ => by decide
theorem EncodedForm.encInit : EncodedForm.Statement .encInit := fun _ => by decide
theorem EncodedForm.parse : EncodedForm.Statement .parse := fun _ => by decide
theorem EncodedForm.verifyRx : EncodedForm.Statement .verifyRx := fun _ => by decide
theorem EncodedForm.verifyTx : EncodedForm.Statement .verifyTx := fun _ => by decide
theorem EncodedForm.send : EncodedForm.Statement .send := fun _ => by decide
theorem EncodedForm.recv : EncodedForm.Statement .recv := fun _ => by decide
theorem EncodedForm.ssm2ReadBlock (a : Address) (n : Byte) : EncodedForm.Statement (.ssm2ReadBlock a n) :=
  fun h => formOk_command (c := .readBlock a n) h
theorem EncodedForm.ssm2ReadSingleAddresses (as : List Address) :
    EncodedForm.Statement (.ssm2ReadSingleAddresses as) := fun h => formOk_command (c := .readSingleAddresses as) h
theorem EncodedForm.ssm2WriteBlock (a : Address) (vs : List Byte) : EncodedForm.Statement (.ssm2WriteBlock a vs) :=
  fun h => formOk_command (c := .writeBlock a vs) h
theorem EncodedForm.ssm2WriteSingleAddress (a : Address) (v : Byte) :
    EncodedForm.Statement (.ssm2WriteSingleAddress a v) := fun h => formOk_command (c := .writeSingleAddress a v) h
theorem EncodedForm.ssm2InitRequest : EncodedForm.Statement .ssm2InitRequest := fun h => formOk_command (c := .initRequest) h
theorem EncodedForm.ssm2Packet (d s : Byte) (c : Option Command) : EncodedForm.Statement (.ssm2Packet d s c) := by
  intro h
  refine decide_eq_true (p := 1 ≤ (packetOf d s (packetData c)).length ∧ (packetOf d s (packetData c)).length ≤ 260) ?_
  cases c with
  | none => simp [packetData]
  | some c =>
    obtain ⟨-, h2⟩ := encodeCommand_bounds (c := c) h
    simp only [packetOf_length, packetData]
    simp only [Config.maxCdata] at h2
    omega

end Laws

end Sys2Proof
end

