-- ==== Sys2Proof/Laws/Port.lean ====
section
/-! SUPPORT. The host port: where each register and element is found, what a line comes to, and the one
form every step takes. -/

namespace Sys2Proof.Machine

/-- A buffer finds its own elements. -/
theorem Buf.elemAt_elemAddr (b : Buf) {i : Nat} (hi : i < b.size) : b.elemAt (b.elemAddr i) = some (.elem b i) := by
  unfold Buf.elemAt
  rw [if_pos (by cases b <;> simp [Buf.elemAddr, Buf.base, Buf.size] at hi ⊢ <;> omega)]
  have : (b.elemAddr i - b.base) / 4 = i := by simp [Buf.elemAddr]
  rw [this]

/-- A buffer finds no element of another. -/
theorem Buf.elemAt_ne {b b' : Buf} (h : b ≠ b') {i : Nat} (hi : i < b.size) : b'.elemAt (b.elemAddr i) = none := by
  unfold Buf.elemAt
  rw [if_neg]
  cases b <;> cases b' <;> simp [Buf.elemAddr, Buf.base, Buf.size] at h hi ⊢ <;> omega

/-- A register is found at its offset (rules R21, R60). -/
theorem locate_reg (r : Reg) : locate r.offset = some (.reg r) := by cases r <;> rfl

/-- An element is found at its offset (rules R29, R60). -/
theorem locate_elem (b : Buf) {i : Nat} (hi : i < b.size) : locate (b.elemAddr i) = some (.elem b i) := by
  have hn : Reg.all.find? (fun r => r.offset == b.elemAddr i) = none := by
    rw [List.find?_eq_none]
    intro r _
    have : r.offset < b.elemAddr i := by
      cases b <;> cases r <;> simp [Reg.offset, Buf.elemAddr, Buf.base] <;> omega
    simpa using Nat.ne_of_lt this
  unfold locate
  rw [hn]
  have hs := b.elemAt_elemAddr hi
  have ho : ∀ b', b ≠ b' → b'.elemAt (b.elemAddr i) = none := fun b' h => Buf.elemAt_ne h hi
  cases b <;> simp [Buf.all, List.findSome?, hs, ho]

/-- What is found at a word-aligned offset stands at that offset. -/
theorem offset_of_locate {off : Nat} {l : Loc} (h4 : off % 4 = 0) (h : locate off = some l) :
    (∃ r, l = .reg r ∧ off = r.offset) ∨ ∃ b i, i < b.size ∧ l = .elem b i ∧ off = b.elemAddr i := by
  unfold locate at h
  split at h
  · rename_i r hr
    have := List.find?_some hr
    exact .inl ⟨r, by simpa using h.symm, (beq_iff_eq.1 this).symm⟩
  · right
    rw [List.findSome?_eq_some_iff] at h
    obtain ⟨_, b, _, -, hb, -⟩ := h
    unfold Buf.elemAt at hb
    split at hb
    · rename_i hc
      refine ⟨b, _, ?_, by simpa using hb.symm, ?_⟩ <;>
        cases b <;> simp [Buf.elemAddr, Buf.base, Buf.size] at hc ⊢ <;> omega
    · simp at hb

/-- Every element's offset is aligned. -/
theorem elemAddr_aligned (b : Buf) (i : Nat) : b.elemAddr i % 4 = 0 := by
  cases b <;> simp only [Buf.elemAddr, Buf.base] <;> omega

/-- Only CMD is write-only. -/
theorem eq_cmd_of_access {l : Loc} (h : l.access = .writeOnly) : l = .reg .cmd := by
  cases l with
  | reg r => cases r <;> simp [Loc.access, Reg.access] at h ⊢
  | elem b i => cases b <;> simp [Loc.access, Buf.access] at h

/-- The operation word's decoder rejects in one way only. -/
theorem error_of_decodeOp {w : Word} {e : DecodeError} (h : decodeOp w = .error e) : e = .illegalOperation := by
  unfold decodeOp at h
  split at h
  · split at h <;> simp_all
  · simp_all

/-- A line that writes an RW register. -/
theorem runLine_wrReg {r : Reg} (ha : r.access = .readWrite) (w : Word) (s : State) :
    runLine (wrReg r w) s = .done (writeReg r w s) := by
  cases r <;> simp [Reg.access] at ha <;> rfl

/-- A line that writes an element of an RW buffer. -/
theorem runLine_wrElem {b : Buf} (ha : b.access = .readWrite) {i : Nat} (hi : i < b.size) (w : Word) (s : State) :
    runLine (wrElem b i w) s = .done (writeElem b i w s) := by
  simp only [runLine, wrElem, hostWrite, checkWrite, checkAccess, elemAddr_aligned, locate_elem b hi, Loc.access]
  cases b <;> simp [Buf.access] at ha <;> rfl

/-- An element reads as before where its bytes do. -/
theorem readElem_congr {s t : State} {b : Buf} {i : Nat}
    (h : ∀ k, b.elemAddr i ≤ k → k < b.elemAddr i + b.elemBytes → t.mem.read k = s.mem.read k) :
    readElem b i t = readElem b i s := by
  cases b with
  | alist =>
    simp only [Buf.elemBytes] at h
    simp only [readElem, Memory.readAddress]
    rw [h _ (by omega) (by omega), h _ (by omega) (by omega), h _ (by omega) (by omega)]
  | _ =>
    simp only [Buf.elemBytes] at h
    simp only [readElem]
    rw [h _ (by omega) (by omega)]

/-- An admitted access reaches a register or an element of a buffer. -/
theorem checkAccess_ok {off : Nat} {width : Nat} {l : Loc} (h : checkAccess off width = .ok l) :
    (∃ r, l = .reg r) ∨ ∃ b i, i < b.size ∧ l = .elem b i := by
  unfold checkAccess at h
  split at h
  · simp at h
  · split at h
    · simp at h
    · split at h
      · injection h with h
        subst h
        rename_i h4 _ hl
        rcases offset_of_locate (by omega) hl with ⟨r, h, -⟩ | ⟨b, i, hi, h, -⟩
        · exact .inl ⟨r, h⟩
        · exact .inr ⟨b, i, hi, h⟩
      · simp at h

theorem checkWrite_ok {off : Nat} {width : Nat} {l : Loc} (h : checkWrite off width = .ok l) :
    (∃ r, l = .reg r) ∨ ∃ b i, i < b.size ∧ l = .elem b i := by
  unfold checkWrite at h
  split at h
  · simp at h
  · rename_i l' hl
    have : l' = l := by split at h <;> simp_all
    exact this ▸ checkAccess_ok hl

/-- What a line that is carried out comes to, the host (and nothing else) having moved to `u`. -/
def LineForm (u t : State) : Prop :=
  t = { u with host := t.host } ∨ t = raise .illegalOperation u ∨ (∃ r w, t = writeReg r w u) ∨
  (∃ b i w, i < b.size ∧ t = writeElem b i w u) ∨ t = blockReset u ∨
  ∃ c i, decode c = .ok i ∧ exec i u = .next t

theorem issue_form {c : Code} {u t : State} (h : carryOut (issue c u) = .next t) : LineForm u t := by
  unfold issue at h
  split at h
  · exact .inr (.inr (.inr (.inr (.inr ⟨c, _, ‹_›, h⟩))))
  · injection h with h
    subst h
    cases c with
    | opWord w => exact .inr (.inl rfl)
    | wire bs => exact .inl rfl

/-- A `goto` continues after the first line that bears its label (log 18). -/
theorem afterLabel_first {l : Nat} {pre : List Line} (h : .label l ∉ pre) (post : List Line) :
    afterLabel l (pre ++ .label l :: post) = some post := by
  induction pre with
  | nil => simp [afterLabel]
  | cons x pre ih =>
    simp only [List.mem_cons, not_or] at h
    cases x with
    | label k =>
      have hk : k ≠ l := fun e => h.1 (e ▸ rfl)
      simpa [afterLabel, hk] using ih h.2
    | _ => exact ih h.2

/-- A label that is missing is found nowhere (log 7). -/
theorem afterLabel_missing {l : Nat} {ls : List Line} (h : .label l ∉ ls) : afterLabel l ls = none := by
  induction ls with
  | nil => rfl
  | cons x ls ih =>
    simp only [List.mem_cons, not_or] at h
    cases x with
    | label k =>
      have hk : k ≠ l := fun e => h.1 (e ▸ rfl)
      simpa [afterLabel, hk] using ih h.2
    | _ => exact ih h.2

/-- Host control flow moves the host and nothing else. -/
theorem act_eq (a : Act) (s : State) : ∃ ls, act a s = s.continueAt ls := by
  cases a <;> exact ⟨_, rfl⟩

/-- A code's line answers a next state, whatever the code. -/
theorem issue_next (c : Code) (s : State) : ∃ t, carryOut (issue c s) = .next t := by
  unfold issue
  split
  · exact exec_next _ s
  · exact ⟨_, rfl⟩

/-- Everything one step can do: the host moves, and then one line's form holds. -/
theorem step_form {s t : State} (h : step s = .next t) :
    ∃ u, u = { s with host := u.host } ∧ LineForm u t := by
  rcases hp : s.host.pending with _ | ⟨l, rest⟩
  · rw [step_of_idle hp] at h
    injection h with h
    exact ⟨s, rfl, .inl (h ▸ rfl)⟩
  · rw [step_of_pending hp] at h
    refine ⟨s.continueAt rest, rfl, ?_⟩
    generalize s.continueAt rest = u at h
    cases l with
    | rd off width =>
      simp only [runLine, hostRead] at h
      split at h
      · cases h
      · injection h with h
        exact .inl (h ▸ rfl)
    | wr off width w =>
      simp only [runLine, hostWrite] at h
      split at h
      · cases h
      · exact issue_form h
      · rename_i l _ hl
        injection h with h
        subst h
        rcases checkWrite_ok hl with ⟨r, rfl⟩ | ⟨b, i, hi, rfl⟩
        · exact .inr (.inr (.inl ⟨r, w, rfl⟩))
        · exact .inr (.inr (.inr (.inl ⟨b, i, w, hi, rfl⟩)))
    | reset =>
      injection h with h
      exact .inr (.inr (.inr (.inr (.inl h.symm))))
    | wire bs => exact issue_form h
    | label l =>
      injection h with h
      exact .inl (h ▸ rfl)
    | jump a =>
      injection h with h
      obtain ⟨ls, ha⟩ := act_eq a u
      exact .inl (h ▸ ha ▸ rfl)
    | ifErr nz a =>
      injection h with h
      obtain ⟨ls, ha⟩ := act_eq a u
      rw [← h, ha]
      split <;> exact .inl rfl

end Sys2Proof.Machine
end

