-- ==== Sys2Proof/Laws/Run.lean ====
section
/-! SUPPORT. Running several host lines, one step each: what a line contributes to a run. -/

namespace Sys2Proof.Machine

/-- A run whose first step answers a next state goes on from it. -/
theorem run_next {n : Nat} {s t : State} (h : step s = .next t) : runSteps (n + 1) s = runSteps n t := by
  simp only [runSteps, h]

/-- A run is the host's own run of the core. -/
theorem core_run_eq (n : Nat) (s : State) : Host.Core.run Sys2Proof.core n s = runSteps n s := by
  induction n generalizing s with
  | zero => rfl
  | succ n ih =>
    have h' : Sys2Proof.core.step s = step s := rfl
    simp only [Host.Core.run, runSteps, h']
    cases h : step s with
    | next t => exact ih t
    | fault f => rfl
    | refused r => rfl

/-- A run of `n + m` steps is one of `n` and then one of `m`. -/
theorem run_add (n m : Nat) {s u : State} (h : runSteps n s = .next u) : runSteps (n + m) s = runSteps m u := by
  induction n generalizing s with
  | zero =>
    injection h with h
    rw [Nat.zero_add, h]
  | succ n ih =>
    rw [Nat.succ_add]
    cases hs : step s with
    | next s' =>
      rw [run_next hs] at h ⊢
      exact ih h
    | fault f => simp [runSteps, hs] at h
    | refused r => simp [runSteps, hs] at h

/-- A line at the head of the host's lines, carried out. -/
theorem run_line {n : Nat} {s u : State} {l : Line} {rest : List Line} (h : s.host.pending = l :: rest)
    (hu : carryOut (runLine l (s.continueAt rest)) = .next u) :
    runSteps (n + 1) s = runSteps n u :=
  run_next (by rw [step_of_pending h, hu])

/-- A line that writes an RW register. -/
theorem run_wrReg {n : Nat} {s : State} {r : Reg} (ha : r.access = .readWrite) {w : Word} {rest : List Line}
    (h : s.host.pending = wrReg r w :: rest) :
    runSteps (n + 1) s = runSteps n (writeReg r w (s.continueAt rest)) :=
  run_line h (by rw [runLine_wrReg ha]; rfl)

/-- A line that hands over an operation word. -/
theorem run_opLine {n : Nat} {s u : State} {i : Instr} (hd : decode (encode i) = .ok i) {rest : List Line}
    (h : s.host.pending = opLine i :: rest) (hu : exec i (s.continueAt rest) = .next u) :
    runSteps (n + 1) s = runSteps n u :=
  run_line h (by rw [opLine, runLine_codeLine, issue, hd]; exact hu)

@[simp] theorem wrElems_length (b : Buf) (ws : List Word) (i : Nat) : (wrElems b i ws).length = ws.length := by
  induction ws generalizing i with
  | nil => rfl
  | cons w ws ih => simp [wrElems, ih]

/-- The lines that write addresses to consecutive elements of ALIST (rule R91). -/
theorem run_wrElems_alist (as : List Address) (i : Nat) (s : State) (rest : List Line) (hl : i + as.length ≤ 84)
    (h : s.host.pending = wrElems .alist i (as.map fun a => a.setWidth 32) ++ rest) :
    runSteps as.length s = .next { s with
      mem := s.mem.storeAddresses (Buf.alist.elemAddr i) as, host := { s.host with pending := rest } } := by
  induction as generalizing i s with
  | nil =>
    obtain rfl : rest = s.host.pending := by simpa [wrElems] using h.symm
    rfl
  | cons a as ih =>
    simp only [List.length_cons] at hl
    have hi : i < Buf.alist.size := by simp only [Buf.size, Config.maxAddrs]; omega
    rw [List.length_cons, run_line (h := h) (by rw [runLine_wrElem rfl hi]; rfl), ih (i + 1) _ (by omega) rfl]
    have : (a.setWidth 32).setWidth 24 = a := by simp
    simp only [State.continueAt, writeElem, Memory.storeAddresses, this]
    rfl

/-- The lines that write bytes to consecutive elements of WVAL (rule R92). -/
theorem run_wrElems_wval (vs : List Byte) (i : Nat) (s : State) (rest : List Line) (hl : i + vs.length ≤ 251)
    (h : s.host.pending = wrElems .wval i (vs.map fun v => v.setWidth 32) ++ rest) :
    runSteps vs.length s = .next { s with
      mem := s.mem.store (Buf.wval.elemAddr i) vs, host := { s.host with pending := rest } } := by
  induction vs generalizing i s with
  | nil =>
    obtain rfl : rest = s.host.pending := by simpa [wrElems] using h.symm
    rfl
  | cons v vs ih =>
    simp only [List.length_cons] at hl
    have hi : i < Buf.wval.size := by simp only [Buf.size, Config.maxWvals]; omega
    rw [List.length_cons, run_line (h := h) (by rw [runLine_wrElem rfl hi]; rfl), ih (i + 1) _ (by omega) rfl]
    have : (v.setWidth 32).setWidth 8 = v := by simp
    simp only [State.continueAt, writeElem, Memory.store, this]
    rfl

end Sys2Proof.Machine
end

