-- ==== Sys2Proof/Laws/Wire.lean ====
section
/-! SUPPORT. The wire rows: each expands to its host lines, and what those lines come to. -/

namespace Sys2Proof.Machine

/-- Running the wire row of a command is expanding it (log 1). -/
theorem exec_command (c : Command) (s : State) : exec c.instr s = .next (s.expandTo (commandLines c)) := by
  cases c <;> rfl

/-- Running a packet row is expanding it (log 1). -/
theorem exec_packet (d r : Byte) (c : Option Command) (s : State) :
    exec (.ssm2Packet d r c) s = .next (s.expandTo (packetLines d r c)) := rfl

/-- An ENC either fails or leaves a well-formed command. -/
theorem encOp_cases (c : Command) (s : State) :
    encOp c s = notEncoded s ∨ ∃ c' : Command, c'.wf = true ∧ encOp c s = encoded c' s := by
  cases c with
  | readBlock a n =>
    rcases encRdblkOp_cases s with ⟨-, h⟩ | ⟨-, -, h⟩
    · exact .inl h
    · exact .inr ⟨_, rfl, h⟩
  | readSingleAddresses as =>
    rcases encRdaddrOp_cases s with ⟨-, h⟩ | ⟨-, -, hw, h⟩
    · exact .inl h
    · exact .inr ⟨_, hw, h⟩
  | writeBlock a vs =>
    rcases encWrblkOp_cases s with ⟨-, h⟩ | ⟨-, -, hw, h⟩
    · exact .inl h
    · exact .inr ⟨_, hw, h⟩
  | writeSingleAddress a v => exact .inr ⟨_, rfl, rfl⟩
  | initRequest => exact .inr ⟨_, rfl, rfl⟩

/-- Building a well-formed command is encoding it, its operands loaded. -/
theorem buildCommand_eq {c : Command} (hc : c.wf = true) {s : State} (hw : s.mem.wf = true) :
    buildCommand c s = encoded c (loadCommand c s) := by
  cases c with
  | readBlock a n =>
    have hn : (loadReadBlock a n s).count.toNat = n.toNat + 1 := by
      simp only [loadReadBlock, BitVec.toNat_ofNat]
      omega
    rcases encRdblkOp_cases (loadReadBlock a n s) with ⟨h | h, -⟩ | ⟨-, -, h⟩
    · simp [h] at hn
    · omega
    · exact h.trans (by rw [hn]; simp [loadReadBlock, loadCommand])
  | readSingleAddresses as =>
    simp only [Command.wf, decide_eq_true_eq, Config.maxAddrs] at hc
    have hn : (loadReadSingleAddresses as s).naddr.toNat = as.length := by
      simp only [loadReadSingleAddresses, BitVec.toNat_ofNat]
      omega
    have ha : (loadReadSingleAddresses as s).addresses = as := by
      rw [State.addresses, hn]
      exact Memory.loadAddresses_storeAddresses hw _ _ rfl
    rcases encRdaddrOp_cases (loadReadSingleAddresses as s) with ⟨h | h, -⟩ | ⟨-, -, -, h⟩
    · simp [h] at hn
      omega
    · omega
    · exact h.trans (by rw [ha]; rfl)
  | writeBlock a vs =>
    simp only [Command.wf, decide_eq_true_eq, Config.maxWvals] at hc
    have hn : (loadWriteBlock a vs s).nval.toNat = vs.length := by
      simp only [loadWriteBlock, BitVec.toNat_ofNat]
      omega
    have ha : (loadWriteBlock a vs s).values = vs := by
      rw [State.values, hn]
      exact Memory.load_store hw _ _ rfl
    rcases encWrblkOp_cases (loadWriteBlock a vs s) with ⟨h | h, -⟩ | ⟨-, -, -, h⟩
    · simp [h] at hn
      omega
    · omega
    · exact h.trans (by rw [ha]; rfl)
  | writeSingleAddress a v => rfl
  | initRequest => rfl

theorem wf_loadCommand {s : State} (hw : s.mem.wf = true) (c : Command) : (loadCommand c s).mem.wf = true := by
  cases c with
  | readSingleAddresses as => exact Memory.wf_storeAddresses hw _ _
  | writeBlock a vs => exact Memory.wf_store hw _ _
  | _ => exact hw

/-- What loading a command's operands leaves alone. -/
theorem loadCommand_frame (c : Command) (s : State) :
    loadCommand c s = { s with
      addr := (loadCommand c s).addr, count := (loadCommand c s).count, value := (loadCommand c s).value,
      naddr := (loadCommand c s).naddr, nval := (loadCommand c s).nval, mem := (loadCommand c s).mem } := by
  cases c <;> rfl

theorem encOp_frame (c : Command) (s : State) :
    encOp c s = { s with mem := (encOp c s).mem, cdlen := (encOp c s).cdlen, err := (encOp c s).err } := by
  rcases encOp_cases c s with h | ⟨c', -, h⟩ <;> rw [h] <;> rfl

theorem buildCommand_frame (c : Command) (s : State) :
    buildCommand c s = { s with
      addr := (loadCommand c s).addr, count := (loadCommand c s).count, value := (loadCommand c s).value,
      naddr := (loadCommand c s).naddr, nval := (loadCommand c s).nval,
      mem := (buildCommand c s).mem, cdlen := (buildCommand c s).cdlen, err := (buildCommand c s).err } := by
  refine (encOp_frame c (loadCommand c s)).trans ?_
  cases c <;> rfl

/-- Loading a command's operands writes the elements of its list and no other byte. -/
theorem read_loadCommand_of_ne (c : Command) (s : State) {k : Nat} (hk : k ∉ operandCells c) :
    (loadCommand c s).mem.read k = s.mem.read k := by
  cases c with
  | readSingleAddresses as =>
    refine Memory.read_storeAddresses_of_ne _ _ _ _ fun i hi => ?_
    simp only [operandCells, List.mem_flatMap, List.mem_range, not_exists, not_and] at hk
    simpa [Buf.elemAddr] using hk i hi
  | writeBlock a vs =>
    refine Memory.read_store_of_ne _ _ _ _ fun i hi h => ?_
    simp only [operandCells, List.mem_map, List.mem_range, not_exists, not_and] at hk
    exact hk i hi h.symm
  | _ => rfl

/-! None of these looks at the host. -/

theorem loadCommand_host (c : Command) (s : State) (h : HostAgent) :
    loadCommand c { s with host := h } = { loadCommand c s with host := h } := by
  cases c <;> rfl

theorem encOp_host (c : Command) (s : State) (h : HostAgent) :
    encOp c { s with host := h } = { encOp c s with host := h } := by
  cases c <;> simp only [encOp, encRdblkOp, encRdaddrOp, encWrblkOp, encWraddrOp, encInitOp,
    apply_ite (fun x : State => ({ x with host := h } : State))] <;> rfl

theorem buildCommand_host (c : Command) (s : State) (h : HostAgent) :
    buildCommand c { s with host := h } = { buildCommand c s with host := h } := by
  rw [buildCommand, loadCommand_host, encOp_host]
  rfl

end Sys2Proof.Machine
end

