-- ==== Sys2Proof/Tests/Slice0.lean ====
section
/-! SUPPORT. The model's own tests: the checks of WellFormed refuse an ill-formed term, every
constructor's code is decoded as the spec's tables write it out, one or two small steps of every
instruction from 95_test_vectors.md, and for every statement with hypotheses a state that meets them. -/

namespace Sys2Proof.Tests

open Sys2Proof Sys2Proof.Machine

/-! Helpers. -/

/-- The state an outcome goes on from; the reset state for a stop. -/
def after (o : Host.Outcome State Fault Refusal) : State :=
  match o with
  | .next t => t
  | .fault _ | .refused _ => State.reset

/-- The fault an outcome stops with. -/
def faultOf (o : Host.Outcome State Fault Refusal) : Option Fault :=
  match o with
  | .fault f => some f
  | .next _ | .refused _ => none

/-- Reset, with one line for the host to run. -/
def host (l : Line) : State := State.reset.continueAt [l]

/-- After the host lines that a wire row expands to (rules R90 to R94; log 1). -/
def built (i : Instr) : State :=
  let t := after (exec i State.reset)
  after (runSteps t.host.pending.length t)

/-- The packet of the InitRequest (vector F1). -/
def initBytes : List Byte := [0x80, 0x10, 0xF0, 0x01, 0xBF, 0x40]

/-- A good reply (vector RC1). -/
def replyBytes : List Byte := [0x80, 0xF0, 0x10, 0x01, 0xFF, 0x80]

/-- After ENC.INIT: CDATA and CDLEN hold the command (vector RS8). -/
def encodedInit : State := { storeIn .cdata [0xBF] State.reset with cdlen := 1 }

/-- After ENC.INIT and FRAME: TXBUF and TXLEN hold its packet (vector F1). -/
def framedInit : State := { storeIn .txbuf initBytes encodedInit with txlen := 6 }

/-- `framedInit`, REPLEN = 6, with these answers to come. -/
def linked (ws : List WriteAnswer) (rs : List ReadAnswer) : State :=
  { framedInit with replen := 6, env := { writes := ws, reads := rs, draws := 0 } }

/-- After the SEND of vector SE1: the echo is pending, the packet is on the wire. -/
def sentInit (rs : List ReadAnswer) : State := { linked [] rs with echolen := 6, txlog := initBytes }

/-- RXRAW holds these bytes, RXCOUNT their number. -/
def rxHolds (bs : List Byte) : State := { storeIn .rxraw bs State.reset with rxcount := BitVec.ofNat 10 bs.length }

/-- REPLY holds these bytes, RPLEN their number. -/
def replyHolds (bs : List Byte) : State := { storeIn .reply bs State.reset with rplen := BitVec.ofNat 10 bs.length }

/-! WellFormed refuses (rule R86's limits: 1 to 84 addresses, 1 to 251 values). -/

theorem test_wf_refuses_no_address : (Instr.ssm2ReadSingleAddresses []).wf = false := by decide
theorem test_wf_refuses_85_addresses : (Instr.ssm2ReadSingleAddresses (List.replicate 85 0)).wf = false := by decide
theorem test_wf_takes_84_addresses : (Instr.ssm2ReadSingleAddresses (List.replicate 84 0)).wf = true := by decide
theorem test_wf_refuses_no_value : (Instr.ssm2WriteBlock 0 []).wf = false := by decide
theorem test_wf_refuses_252_values : (Instr.ssm2WriteBlock 0 (List.replicate 252 0)).wf = false := by
  simp only [Instr.wf, Command.wf, List.length_replicate]
  decide
theorem test_wf_takes_251_values : (Instr.ssm2WriteBlock 0 (List.replicate 251 0)).wf = true := by
  simp only [Instr.wf, Command.wf, List.length_replicate]
  decide
theorem test_wf_refuses_packet_of_no_address :
    (Instr.ssm2Packet 0x10 0xF0 (some (.readSingleAddresses []))).wf = false := by decide
theorem test_wf_refuses_packet_of_no_value :
    (Instr.ssm2Packet 0x10 0xF0 (some (.writeBlock 0 []))).wf = false := by decide

/-! Decoding, each word or byte sequence written out from rules R81, R84 and R86. -/

theorem test_decode_nop : decode (.opWord 0b00000000000000000000000000000000) = .ok .nop := by rfl
theorem test_decode_frame : decode (.opWord 0b00000000000000000000000000000001) = .ok .frame := by rfl
theorem test_decode_encRdblk : decode (.opWord 0b00000000000000000000000000000010) = .ok .encRdblk := by rfl
theorem test_decode_encRdaddr : decode (.opWord 0b00000000000000000000000000000011) = .ok .encRdaddr := by rfl
theorem test_decode_encWrblk : decode (.opWord 0b00000000000000000000000000000100) = .ok .encWrblk := by rfl
theorem test_decode_encWraddr : decode (.opWord 0b00000000000000000000000000000101) = .ok .encWraddr := by rfl
theorem test_decode_encInit : decode (.opWord 0b00000000000000000000000000000110) = .ok .encInit := by rfl
theorem test_decode_parse : decode (.opWord 0b00000000000000000000000000000111) = .ok .parse := by rfl
theorem test_decode_verifyRx : decode (.opWord 0b00000000000000000000000000001000) = .ok .verifyRx := by rfl
theorem test_decode_verifyTx : decode (.opWord 0b00000000000000000000000000011000) = .ok .verifyTx := by rfl
theorem test_decode_send : decode (.opWord 0b00000000000000000000000000001001) = .ok .send := by rfl
theorem test_decode_recv : decode (.opWord 0b00000000000000000000000000001010) = .ok .recv := by rfl
/-- The packet of §1.2 of 95_test_vectors.md without its header: `A0`, pad `00`, Address, count - 1. -/
theorem test_decode_readBlock :
    decode (.wire [0xA0, 0x00, 0x12, 0x34, 0x56, 0xFF]) = .ok (.ssm2ReadBlock 0x123456 0xFF) := by rfl
/-- §1.1 of 95_test_vectors.md: `A8`, pad `01`, the addresses. -/
theorem test_decode_readSingleAddresses :
    decode (.wire [0xA8, 0x01, 0x00, 0x00, 0x1C, 0x00, 0x00, 0x08]) =
      .ok (.ssm2ReadSingleAddresses [0x00001C, 0x000008]) := by rfl
/-- §1.2 of 95_test_vectors.md: `B0`, Address, the values. -/
theorem test_decode_writeBlock :
    decode (.wire [0xB0, 0xFF, 0xFF, 0xFF, 0x01, 0x02, 0x03]) = .ok (.ssm2WriteBlock 0xFFFFFF [0x01, 0x02, 0x03]) := by rfl
/-- §1.2 of 95_test_vectors.md: `B8`, Address, value. -/
theorem test_decode_writeSingleAddress :
    decode (.wire [0xB8, 0x00, 0x00, 0x6B, 0x5A]) = .ok (.ssm2WriteSingleAddress 0x00006B 0x5A) := by rfl
theorem test_decode_initRequest : decode (.wire [0xBF]) = .ok .ssm2InitRequest := by rfl
/-- §1.2 of 95_test_vectors.md: header, data, checksum. -/
theorem test_decode_packet :
    decode (.wire [0x80, 0x10, 0xF0, 0x05, 0xB8, 0x00, 0x00, 0x6B, 0x5A, 0x02]) =
      .ok (.ssm2Packet 0x10 0xF0 (some (.writeSingleAddress 0x00006B 0x5A))) := by rfl
theorem test_decode_empty_packet :
    decode (.wire [0x80, 0x10, 0xF0, 0x00, 0x80]) = .ok (.ssm2Packet 0x10 0xF0 none) := by rfl

/-! What the decoder refuses, by name. -/

theorem test_refuse_word_0B : decode (.opWord 0x0000000B) = .error .illegalOperation := by rfl
theorem test_refuse_word_19 : decode (.opWord 0x00000019) = .error .illegalOperation := by rfl
theorem test_refuse_reserved_bit : decode (.opWord 0x80000001) = .error .illegalOperation := by rfl
theorem test_refuse_no_byte : decode (.wire []) = .error .emptyCode := by rfl
theorem test_refuse_other_first_byte : decode (.wire [0xA1]) = .error .unknownFirstByte := by rfl
theorem test_refuse_pad : decode (.wire [0xA0, 0x01, 0, 0, 0, 0]) = .error .badPad := by rfl
theorem test_refuse_length : decode (.wire [0xA0, 0x00, 0, 0, 0]) = .error .badLength := by rfl
theorem test_refuse_checksum : decode (.wire [0x80, 0x10, 0xF0, 0x01, 0xBF, 0x41]) = .error .badChecksum := by rfl

/-- Every row of spec/opcode_table.json, its word read as the table numbers it. -/
theorem test_table_words :
    decodeTableWord 32 0x00000018 = some .verifyTx ∧ decodeTableWord 8 0xA0 = some (.ssm2ReadBlock 0 0) ∧
    decodeTableWord 8 0xA8 = some (.ssm2ReadSingleAddresses [0]) ∧ decodeTableWord 8 0xB0 = some (.ssm2WriteBlock 0 [0]) ∧
    decodeTableWord 8 0xB8 = some (.ssm2WriteSingleAddress 0 0) ∧ decodeTableWord 8 0xBF = some .ssm2InitRequest ∧
    decodeTableWord 8 0x80 = some (.ssm2Packet 0 0 none) := by
  refine ⟨rfl, rfl, rfl, rfl, rfl, rfl, rfl⟩

/-! Host accesses (vectors HA2, HA6, HA7, HA9, HA10). -/

theorem test_wr_addr_keeps_24_bits : (after (step (host (.wr 0x010 4 0x12345678)))).addr = 0x345678 := by rfl
theorem test_wr_rxcount_keeps_10_bits : (after (step (host (.wr 0x038 4 0xFFFF)))).rxcount = 0x3FF := by rfl
theorem test_wr_alist_keeps_24_bits :
    readElem .alist 3 (after (step (host (.wr 0x010C 4 0xAB00001C)))) = 0x0000001C := by decide
theorem test_rd_status : (after (step (sentInit [] |>.continueAt [.rd 0x004 4]))).host.readData = 0x00000020 := by rfl
theorem test_stop_read_of_cmd : faultOf (step (host (.rd 0x000 4))) = some .readOfCmd := by rfl
theorem test_stop_write_to_cdlen : faultOf (step (host (.wr 0x02C 4 1))) = some .writeToReadOnly := by rfl
theorem test_stop_unmapped : faultOf (step (host (.rd 0x0250 4))) = some .unmapped := by rfl
theorem test_stop_misaligned : faultOf (step (host (.rd 0x0006 4))) = some .misaligned := by rfl
/-- ALIST[16384] has no 16-bit offset (log 19). -/
theorem test_stop_index_past_the_space : faultOf (step (host (wrElem .alist 16384 1))) = some .unmapped := by rfl
theorem test_stop_width : faultOf (step (host (.rd 0x0004 2))) = some .accessWidth := by rfl

/-! One or two steps of each instruction, from 95_test_vectors.md. -/

/-- Vector N1. -/
theorem test_nop : (after (exec .nop { sentInit [] with err := .sequenceError, csumOk := true })).statusWord = 0x30 := by
  decide
/-- Vector F9: DST = 34. -/
theorem test_frame : (after (exec .frame { encodedInit with dst := 0x34 })).packet = [0x80, 0x34, 0xF0, 0x01, 0xBF, 0x64] := by
  decide
/-- Vector F6: a FRAME with no command leaves TXBUF as it was. -/
theorem test_frame_fails :
    let t := after (exec .frame { framedInit with cdlen := 0 })
    t.err = .invalidArgument ∧ t.txlen = 0 ∧ t.mem.load Buf.txbuf.base 6 = initBytes := by decide
/-- Vector RB2. -/
theorem test_encRdblk :
    (after (exec .encRdblk { State.reset with addr := 0x123456, count := 0x100 })).command =
      [0xA0, 0x00, 0x12, 0x34, 0x56, 0xFF] := by decide
/-- Vector RB8: CDATA[0] stays as it was. -/
theorem test_encRdblk_fails :
    let t := after (exec .encRdblk { encodedInit with count := 257 })
    t.err = .invalidArgument ∧ t.cdlen = 0 ∧ t.mem.read 0x0800 = 0xBF := by decide
/-- Vector RA3. -/
theorem test_encRdaddr :
    (after (exec .encRdaddr { State.reset with
      mem := Memory.storeAddresses [] 0x0100 [0x000008, 0x00001C], naddr := 2 })).command =
      [0xA8, 0x01, 0x00, 0x00, 0x08, 0x00, 0x00, 0x1C] := by decide
/-- Vector RA6. -/
theorem test_encRdaddr_fails : (after (exec .encRdaddr { State.reset with naddr := 85 })).err = .invalidArgument := by
  decide
/-- Vector WB1. -/
theorem test_encWrblk :
    (after (exec .encWrblk { storeIn .wval [0x01, 0x02, 0x03] State.reset with addr := 0xFFFFFF, nval := 3 })).command =
      [0xB0, 0xFF, 0xFF, 0xFF, 0x01, 0x02, 0x03] := by decide
/-- Vector WB4. -/
theorem test_encWrblk_fails : (after (exec .encWrblk { State.reset with nval := 252 })).err = .invalidArgument := by
  decide
/-- §1.2 of 95_test_vectors.md. -/
theorem test_encWraddr :
    (after (exec .encWraddr { State.reset with addr := 0x00006B, value := 0x5A })).command =
      [0xB8, 0x00, 0x00, 0x6B, 0x5A] := by decide
/-- Vector RS8. -/
theorem test_encInit : (after (exec .encInit State.reset)).command = [0xBF] := by decide
/-- Vector PA1. -/
theorem test_parse :
    (after (exec .parse { rxHolds (initBytes ++ [0xAA, 0xBB]) with reqlen := 6 })).replyBytes = [0xAA, 0xBB] := by
  decide
/-- Vector PA6: InvalidArgument comes before TruncatedFrame. -/
theorem test_parse_priority :
    (after (exec .parse { State.reset with rxcount := 600, reqlen := 700 })).err = .invalidArgument := by decide
/-- Vector V7: the sum 0x100 wraps to 0. -/
theorem test_verifyRx : (after (exec .verifyRx (replyHolds [0xFF, 0x01, 0x00]))).csumOk = true := by decide
/-- Vector V2. -/
theorem test_verifyRx_fails :
    (after (exec .verifyRx (replyHolds [0x80, 0x10, 0xF0, 0x01, 0xBF, 0x41]))).err = .checksumMismatch := by decide
/-- Vector V11: legal while an echo is pending. -/
theorem test_verifyTx : (after (exec .verifyTx (sentInit []))).statusWord = 0x30 := by decide
/-- Vector SE4: a prefix of the packet reaches the wire. -/
theorem test_send_fails :
    let t := after (exec .send (linked [.ioError 3] []))
    t.err = .transportError ∧ t.echolen = 0 ∧ t.txlog = [0x80, 0x10, 0xF0] := by decide
/-- Vector SE1. -/
theorem test_send :
    let t := after (exec .send (linked [.ok] []))
    t.err = .ok ∧ t.echolen = 6 ∧ t.txlog = initBytes ∧ t.txlen = 6 := by decide
/-- Vector RC7: the echo is not compared. -/
theorem test_recv :
    let t := after (exec .recv (sentInit [.bytes ([0, 0, 0, 0, 0, 0] ++ replyBytes)]))
    t.err = .ok ∧ t.echolen = 0 ∧ t.rxcount = 12 ∧ t.csumOk = true ∧ t.replyBytes = replyBytes := by decide
/-- Vector RC4: what came stays in RXRAW. -/
theorem test_recv_truncated :
    let t := after (exec .recv (sentInit [.bytes (initBytes ++ [0x80, 0xF0, 0x10])]))
    t.err = .truncatedFrame ∧ t.echolen = 0 ∧ t.rxcount = 9 ∧ t.rplen = 0 ∧
      t.raw = initBytes ++ [0x80, 0xF0, 0x10] := by decide
theorem test_ssm2ReadBlock :
    let t := built (.ssm2ReadBlock 0x123456 0xFF)
    t.command = [0xA0, 0x00, 0x12, 0x34, 0x56, 0xFF] ∧ t.count = 256 := by decide
theorem test_ssm2ReadSingleAddresses :
    (built (.ssm2ReadSingleAddresses [0x00001C, 0x000008])).command =
      [0xA8, 0x01, 0x00, 0x00, 0x1C, 0x00, 0x00, 0x08] := by decide
theorem test_ssm2WriteBlock :
    (built (.ssm2WriteBlock 0xFFFFFF [0x01, 0x02, 0x03])).command =
      [0xB0, 0xFF, 0xFF, 0xFF, 0x01, 0x02, 0x03] := by decide
theorem test_ssm2WriteSingleAddress :
    (built (.ssm2WriteSingleAddress 0x00006B 0x5A)).command = [0xB8, 0x00, 0x00, 0x6B, 0x5A] := by
  decide
theorem test_ssm2InitRequest : (built .ssm2InitRequest).command = [0xBF] := by decide
/-- §1.2 of 95_test_vectors.md. -/
theorem test_ssm2Packet :
    (built (.ssm2Packet 0x10 0xF0 (some (.writeSingleAddress 0x00006B 0x5A)))).packet =
      [0x80, 0x10, 0xF0, 0x05, 0xB8, 0x00, 0x00, 0x6B, 0x5A, 0x02] := by decide
/-- An illegal word (vector DC15) changes STATUS.ERR only. -/
theorem test_illegal_word :
    (after (step ({ sentInit [] with err := .sequenceError, csumOk := true }.continueAt [.wr 0x000 4 0x80000001]))).statusWord =
      0x37 := by decide
/-- A wire row's line writes nothing itself, its host lines take its place (log 1); bytes that are no row stand
for none (log 6). -/
theorem test_wire_line :
    step (host (.wire [0xBF])) = .next (host (.wr 0x000 4 0x00000006)) ∧ step (host (.wire [0xA1])) = .next State.reset :=
  ⟨rfl, rfl⟩
/-- A packet row without data (log 10). -/
theorem test_empty_packet :
    built (.ssm2Packet 0x20 0x30 none) = { State.reset with dst := 0x20, src := 0x30, err := .invalidArgument } := by
  decide
theorem test_reset_line :
    let t := after (step ((sentInit []).continueAt [.reset]))
    t.dst = 0x10 ∧ t.src = 0xF0 ∧ t.mem = [] ∧ t.echolen = 0 ∧ t.txlog = initBytes := by decide

/-! Witnesses: states that meet the statements' hypotheses. -/

theorem initBytes_command : IsCommandPacket initBytes := ⟨0x10, 0xF0, .initRequest, rfl, rfl⟩

theorem framedInit_cells : framedInit.mem.wf = true ∧ ∀ c ∈ framedInit.mem, Memory.mapped c.1 = true := by decide

theorem linked_inv (ws : List WriteAnswer) (rs : List ReadAnswer) : (linked ws rs).Inv :=
  ⟨framedInit_cells.1, framedInit_cells.2, fun _ => ⟨.initRequest, rfl, rfl⟩, fun _ => initBytes_command,
    fun h => absurd rfl h, Nat.zero_le _, nofun⟩

theorem sentInit_inv (rs : List ReadAnswer) : (sentInit rs).Inv :=
  ⟨framedInit_cells.1, framedInit_cells.2, fun _ => ⟨.initRequest, rfl, rfl⟩, fun _ => initBytes_command,
    fun _ => ⟨[], initBytes, initBytes_command, rfl, rfl⟩, Nat.zero_le _, nofun⟩

theorem sentInit_clean (rs : List ReadAnswer) : (sentInit rs).WireClean :=
  ⟨[initBytes], rfl, fun f hf => ⟨initBytes, initBytes_command, by simp_all⟩⟩

theorem witness_ResetStepGivesResetValues : ((sentInit []).continueAt [.reset]).host.pending = .reset :: [] := rfl

/-- Reads: width, alignment, the ends of the mapped ranges, CMD; what is admitted beside each. -/
theorem witness_OnlyNotAdmittedAccessesStop_read :
    (∀ l, (host l).host.pending = l :: []) ∧
    faultOf (step (host (.rd 0x0004 1))) = some .accessWidth ∧ faultOf (step (host (.rd 0x0005 4))) = some .misaligned ∧
    faultOf (step (host (.rd 0x0040 4))) = some .unmapped ∧ faultOf (step (host (.rd 0x003C 4))) = none ∧
    faultOf (step (host (.rd 0x00FC 4))) = some .unmapped ∧ faultOf (step (host (.rd 0x0100 4))) = none ∧
    faultOf (step (host (.rd 0x2C20 4))) = some .unmapped ∧ faultOf (step (host (.rd 0x2C1C 4))) = none ∧
    faultOf (step (host (.rd 0x0000 4))) = some .readOfCmd := by
  refine ⟨fun _ => rfl, ?_, ?_, ?_, ?_, ?_, ?_, ?_, ?_, ?_⟩ <;> rfl

/-- Writes: the read-only registers and buffers, the end of RXRAW, CMD. -/
theorem witness_OnlyNotAdmittedAccessesStop_write :
    faultOf (step (host (.wr 0x0004 4 0))) = some .writeToReadOnly ∧
    faultOf (step (host (.wr 0x2400 4 0))) = some .writeToReadOnly ∧
    faultOf (step (host (.wr 0x1C20 4 0))) = some .unmapped ∧ faultOf (step (host (.wr 0x1C1C 4 0))) = none ∧
    faultOf (step (host (.wr 0x0000 4 0))) = none := by
  refine ⟨?_, ?_, ?_, ?_, ?_⟩ <;> rfl

theorem witness_MappedWordsAreRegistersAndElements :
    0x024C % 4 = 0 ∧ locate 0x024C = some (.elem .alist 83) ∧ locate 0x0250 = none ∧
    locate 0x003C = some (.reg .rplen) ∧ locate 0x2C1C = some (.elem .reply 519) := by
  refine ⟨?_, ?_, ?_, ?_, ?_⟩ <;> rfl

theorem witness_HostRegisterWriteStoresLowBits :
    Reg.addr.access = .readWrite ∧ (host (wrReg .addr 0x12345678)).host.pending = wrReg .addr 0x12345678 :: [] :=
  ⟨rfl, rfl⟩

theorem witness_HostElementWriteStoresLowBits :
    (host (wrElem .rxraw 519 0x1FF)).mem.wf = true ∧ Buf.rxraw.access = .readWrite ∧ 519 < Buf.rxraw.size ∧
    (host (wrElem .rxraw 519 0x1FF)).host.pending = wrElem .rxraw 519 0x1FF :: [] :=
  ⟨rfl, rfl, by decide, rfl⟩

theorem witness_HostReadsHaveNoSideEffect :
    Reg.rplen ≠ .cmd ∧ (host (rdReg .rplen)).host.pending = rdReg .rplen :: [] ∧ 519 < Buf.reply.size ∧
    (host (rdElem .reply 519)).host.pending = rdElem .reply 519 :: [] :=
  ⟨by decide, rfl, by decide, rfl⟩

theorem witness_DecodeOfEncodeIsTheInstruction :
    (Instr.ssm2Packet 0x10 0xF0 (some (.readSingleAddresses (List.replicate 84 0)))).wf = true := by decide

theorem witness_AcceptedCodesAreEncodings : decode (.wire initBytes) = .ok (.ssm2Packet 0x10 0xF0 (some .initRequest)) :=
  rfl

/-- Each of rule R82's three tests at the value where it begins to hold, and the words beside them. -/
theorem witness_IllegalWordsChangeOnlyErr :
    ((0x20 : Word).extractLsb' 5 27 ≠ 0) ∧ (0xB ≤ ((0x0B : Word).extractLsb' 0 4).toNat) ∧
    ((0x10 : Word).getLsbD 4 = true ∧ (0x10 : Word).extractLsb' 0 4 ≠ 0x8) ∧
    (host (codeLine (.opWord 0x10))).host.pending = codeLine (.opWord 0x10) :: [] ∧
    decode (.opWord 0x0A) = .ok .recv ∧ decode (.opWord 0x18) = .ok .verifyTx :=
  ⟨by decide, by decide, by decide, rfl, rfl, rfl⟩

theorem witness_StepRunsTheDecodedInstruction :
    (host (.wire initBytes)).handing (.wire initBytes) [] ∧
    (host (.wr 0x000 4 0x00000009)).handing (.opWord 0x00000009) [] ∧ decode (.opWord 0x00000009) = .ok .send :=
  ⟨rfl, rfl, rfl⟩

theorem witness_EveryCmdWriteCompletes :
    (host (codeLine (.opWord 0xFFFFFFFF))).host.pending = codeLine (.opWord 0xFFFFFFFF) :: [] := rfl

theorem witness_ControlFlowTouchesOnlyTheHost :
    State.reset.host.pending = [] ∧ (host (.label 1)).host.pending = .label 1 :: [] ∧
    (host (.ifErr false .stop)).host.pending = .ifErr false .stop :: [] ∧
    decide (State.reset.host.status.extractLsb' 0 4 ≠ 0) = false ∧
    decide (State.reset.host.status.extractLsb' 0 4 ≠ 0) ≠ true ∧
    (host (.jump .stop)).host.pending = .jump .stop :: [] := by decide

/-- A label that stands once, one that stands twice (log 18), and one that is missing (log 7). -/
theorem witness_ControlFlowTouchesOnlyTheHost_goto :
    let s := State.reset.withProgram [.label 1, .label 2, .reset, .label 2]
    s.host.prog = [] ++ .label 1 :: [.label 2, .reset, .label 2] ∧ .label 1 ∉ ([] : List Line) ∧
    s.host.prog = [.label 1] ++ .label 2 :: [.reset, .label 2] ∧ .label 2 ∉ [Line.label 1] ∧
    .label 3 ∉ s.host.prog := by decide

theorem witness_OnlyVerifyAndRecvWriteCsumOk :
    (∃ t, exec .send (linked [.ok] []) = .next t) ∧
    ({ State.reset with replen := 261 } : State).replen.toNat = 261 ∧
    (∃ t, exec .recv { State.reset with replen := 261 } = .next t) ∧ State.reset.replen = 0 :=
  ⟨⟨_, rfl⟩, rfl, ⟨_, rfl⟩, rfl⟩

theorem witness_OnlySendReachesTheWire : ∃ t, exec .send (linked [.ioError 3] []) = .next t := ⟨_, rfl⟩

theorem witness_OnlyGoodParseOrRecvWritesReply :
    (∃ t, exec .recv (sentInit [.ioError]) = .next t ∧ t.err ≠ .ok) ∧
    ∃ t, exec .frame encodedInit = .next t :=
  ⟨⟨_, rfl, by decide⟩, _, rfl⟩

theorem witness_EchoLengthIsArmedBySendAndClearedByRecv :
    ((sentInit []).continueAt [.reset]).host.pending = .reset :: [] ∧
    (∃ t, exec .send (linked [.ok] []) = .next t ∧ t.err = .ok) ∧
    (∃ t, exec .send (linked [.ioError 0] []) = .next t ∧ t.err = .transportError) ∧
    (∃ t, exec .recv { sentInit [.bytes []] with replen := 260 } = .next t) ∧
    (∃ t, exec .recv { sentInit [] with replen := 261 } = .next t) :=
  ⟨rfl, ⟨_, rfl, by decide⟩, ⟨_, rfl, by decide⟩, ⟨_, rfl⟩, _, rfl⟩

theorem witness_SingleByteCorruptionIsDetected :
    5 < initBytes.length ∧ csumOk initBytes = true ∧ (0x41 : Byte) ≠ initBytes[5] := by decide

theorem witness_CancellingCorruptionIsNotDetected :
    1 ≠ 2 ∧ 1 + 1 < initBytes.length ∧ 4 + 1 < initBytes.length ∧ csumOk initBytes = true ∧
    csumOk ([0x80, 0x10, 0xF0, 0x01, 0xBF] ++ [0x40]) = true ∧
    sum8 [0x80, 0x10, 0xF0, 0x01, 0xCF] = sum8 [0x80, 0x10, 0xF0, 0x01, 0xBF] + 0x10 := by
  decide

theorem witness_FrameBuildsThePacket :
    encodedInit.mem.wf = true ∧ encodedInit.cdlen ≠ 0 ∧ State.reset.cdlen = 0 := by decide

theorem witness_FramedPacketPassesTheCheck :
    encodedInit.mem.wf = true ∧ ∃ t, exec .frame encodedInit = .next t ∧ t.err = .ok := ⟨by decide, _, rfl, by decide⟩

/-- The encoders' limits: the first and last operand each takes, and the first it does not. -/
theorem witness_EncRdblkEncodesReadBlock :
    State.reset.mem.wf = true ∧ 1 ≤ (1 : BitVec 9).toNat ∧ (256 : BitVec 9).toNat ≤ 256 ∧
    256 < (257 : BitVec 9).toNat ∧ State.reset.count = 0 := by decide

theorem witness_EncRdaddrEncodesReadSingleAddresses :
    State.reset.mem.wf = true ∧ 1 ≤ (1 : BitVec 7).toNat ∧ (84 : BitVec 7).toNat ≤ 84 ∧
    84 < (85 : BitVec 7).toNat ∧ State.reset.naddr = 0 := by decide

theorem witness_EncWrblkEncodesWriteBlock :
    State.reset.mem.wf = true ∧ 1 ≤ (1 : BitVec 8).toNat ∧ (251 : BitVec 8).toNat ≤ 251 ∧
    251 < (252 : BitVec 8).toNat ∧ State.reset.nval = 0 := by decide

theorem witness_EncWraddrAndInitEncode : (sentInit []).mem.wf = true := by decide

theorem witness_EncReadsOnlyItsOperands :
    let s := { State.reset with addr := 0x123456, count := 256, value := 0x5A }
    let s' := { sentInit [] with addr := 0x123456, count := 256, value := 0x5A }
    s.mem.wf = true ∧ s'.mem.wf = true ∧ s.addr = s'.addr ∧ s.count = s'.count ∧ s.value = s'.value ∧
    s.naddr = s'.naddr ∧ s.nval = s'.nval ∧ s.addresses = s'.addresses ∧ s.values = s'.values := by decide

/-- The operands of each operation agree where another's do not: COUNT for ENC.RDBLK, ALIST[0:1] for ENC.RDADDR,
WVAL[0:1] for ENC.WRBLK, VALUE for ENC.WRADDR. -/
theorem witness_EncReadsOnlyItsOperands_apart :
    let s := { storeIn .wval [0x01] State.reset with count := 1, nval := 1, naddr := 1, value := 7 }
    let r := { storeIn .wval [0x02] State.reset with count := 1, nval := 1, naddr := 2, value := 8 }
    let u := { storeIn .wval [0x01] State.reset with count := 2, nval := 1, naddr := 1, value := 7 }
    (s.addr = r.addr ∧ s.count = r.count ∧ s.naddr ≠ r.naddr ∧ s.value ≠ r.value ∧ s.values ≠ r.values) ∧
    (s.naddr = u.naddr ∧ s.addresses = u.addresses ∧ s.nval = u.nval ∧ s.values = u.values ∧ s.value = u.value ∧
      s.count ≠ u.count) := by decide

theorem witness_FailedEncStopsTheChain :
    Instr.encRdblk ∈ encOps ∧ (linked [] []).echolen = 0 ∧ (sentInit []).echolen ≠ 0 ∧
    (∃ s1, exec .encRdblk (linked [] []) = .next s1 ∧ s1.err ≠ .ok) ∧
    ∃ s1, exec .encRdblk (sentInit []) = .next s1 ∧ s1.err ≠ .ok :=
  ⟨by decide, rfl, by decide, ⟨_, rfl, by decide⟩, _, rfl, by decide⟩

/-- RXCOUNT at 520 and 521, REQLEN at RXCOUNT and one above it. -/
theorem witness_ParseStripsTheEcho :
    State.reset.mem.wf = true ∧ (520 : BitVec 10).toNat ≤ 520 ∧ (520 : BitVec 10).toNat ≤ (520 : BitVec 10).toNat ∧
    520 < (521 : BitVec 10).toNat ∧ (520 : BitVec 10).toNat < (521 : BitVec 10).toNat := by decide

/-- §1.4 of 95_test_vectors.md. -/
theorem witness_ParseRoundTrip :
    let s := { received (initBytes ++ replyBytes) framedInit with reqlen := 6 }
    s.mem.wf = true ∧ s.txlen.toNat + replyBytes.length ≤ 520 ∧
    s.rxcount.toNat = s.txlen.toNat + replyBytes.length ∧ s.reqlen.toNat = s.txlen.toNat ∧
    s.raw = s.packet ++ replyBytes := by decide

theorem witness_VerifyReportsTheCheck :
    csumOk (replyHolds replyBytes).replyBytes = true ∧ csumOk (replyHolds [0x01]).replyBytes = false ∧
    State.reset.rplen = 0 ∧ csumOk framedInit.packet = true ∧
    csumOk ({ framedInit with txlen := 5 } : State).packet = false ∧ State.reset.txlen = 0 := by decide

theorem witness_VerifyTxPassesExactlyOnAPacket : (linked [] []).Inv ∧ (linked [] []).txlen ≠ 0 :=
  ⟨linked_inv [] [], by decide⟩

theorem witness_SendTransmitsThePacket_asked :
    let s := linked [.ok] []
    let s' := linked [.ioError 3] []
    s.echolen = 0 ∧ s.txlen ≠ 0 ∧ nextWrite s.packet s = .ok ∧
    s'.echolen = 0 ∧ s'.txlen ≠ 0 ∧ nextWrite s'.packet s' = .ioError 3 := by decide

/-- The second is vector SE5: both errors apply. -/
theorem witness_SendTransmitsThePacket_not_asked :
    (sentInit []).echolen ≠ 0 ∧ ({ sentInit [] with txlen := 0 } : State).echolen ≠ 0 ∧
    State.reset.echolen = 0 ∧ State.reset.txlen = 0 := by decide

theorem witness_RecvOutcomes_success :
    let s := sentInit [.bytes (initBytes ++ replyBytes)]
    s.mem.wf = true ∧ 1 ≤ s.replen.toNat ∧ s.replen.toNat ≤ 260 ∧
    nextRead (s.echolen.toNat + s.replen.toNat) s = .bytes (initBytes ++ replyBytes) ∧
    (initBytes ++ replyBytes).length = s.echolen.toNat + s.replen.toNat ∧
    csumOk ((initBytes ++ replyBytes).drop s.echolen.toNat) = true := by decide

theorem witness_RecvOutcomes_refused :
    State.reset.replen = 0 ∧ 260 < (261 : BitVec 9).toNat ∧ ¬ 260 < (260 : BitVec 9).toNat := by decide

/-- The rows of rule R183: vectors RC2, RC3, RC5, RC6, RC1. -/
theorem witness_RecvOutcomes_rows :
    (sentInit []).mem.wf = true ∧ 1 ≤ (sentInit []).replen.toNat ∧ (sentInit []).replen.toNat ≤ 260 ∧
    nextRead 12 (sentInit [.ioError]) = .ioError ∧ nextRead 12 (sentInit [.bytes []]) = .bytes [] ∧
    nextRead 12 (sentInit [.bytes [0x80, 0x10, 0xF0]]) = .bytes [0x80, 0x10, 0xF0] ∧
    csumOk [0x80, 0xF0, 0x10, 0x01, 0xFF, 0x81] = false ∧ csumOk replyBytes = true := by decide

theorem witness_EchoIsStrippedOnce :
    let s := linked [.ok] [.bytes (initBytes ++ replyBytes), .bytes replyBytes]
    s.mem.wf = true ∧ (∃ t, exec .send s = .next t ∧ t.err = .ok) ∧ 1 ≤ s.replen.toNat ∧ s.replen.toNat ≤ 260 ∧
    s.env.reads = .bytes (initBytes ++ replyBytes) :: .bytes replyBytes :: [] ∧
    initBytes.length = s.txlen.toNat ∧ replyBytes.length = s.replen.toNat ∧ csumOk replyBytes = true :=
  ⟨by decide, ⟨_, rfl, by decide⟩, by decide, by decide, rfl, rfl, rfl, by decide⟩

theorem witness_ExchangeReturnsOnlyTheReply :
    let s := linked [.ok] [.bytes (initBytes ++ replyBytes)]
    s.Inv ∧ s.txlen ≠ 0 ∧ s.echolen = 0 ∧ 1 ≤ s.replen.toNat ∧ s.replen.toNat ≤ 260 ∧
    s.env.writes = .ok :: [] ∧ s.env.reads = .bytes (initBytes ++ replyBytes) :: [] ∧
    initBytes.length = s.txlen.toNat ∧ replyBytes.length = s.replen.toNat :=
  ⟨linked_inv _ _, by decide, rfl, by decide, by decide, rfl, rfl, rfl, rfl⟩

theorem witness_FaithfulEchoIsThePacketSent :
    let s := sentInit [.bytes (initBytes ++ replyBytes)]
    s.mem.wf = true ∧ EchoFaithful s ∧ s.txlog = [] ++ initBytes ∧ s.echolen.toNat = initBytes.length ∧
    1 ≤ s.replen.toNat ∧ s.replen.toNat ≤ 260 ∧ ∃ t, exec .recv s = .next t ∧ t.err = .ok := by
  refine ⟨by decide, ?_, rfl, rfl, by decide, by decide, _, rfl, by decide⟩
  intro b hb
  injection hb with hb
  subst hb
  decide

theorem witness_FixedWireRowsBuildTheirBytes : State.reset.mem.wf = true := rfl

theorem witness_ListWireRowsBuildTheirBytes :
    State.reset.mem.wf = true ∧ 1 ≤ (List.replicate 84 (0 : Address)).length ∧
    (List.replicate 84 (0 : Address)).length ≤ 84 ∧ 1 ≤ (List.replicate 251 (0 : Byte)).length ∧
    (List.replicate 251 (0 : Byte)).length ≤ 251 := by
  simp only [List.length_replicate]
  decide

theorem witness_PacketRowBuildsItsBytes :
    (sentInit []).mem.wf = true ∧ (Command.readSingleAddresses [0x00001C, 0x000008]).wf = true := by decide

theorem witness_WireRowsAreTheirHostLines :
    (Command.writeBlock 0xFFFFFF [0x01, 0x02, 0x03]).wf = true ∧ Command.initRequest.wf = true := by decide

theorem witness_ExchangeLinesRunSendThenRecv :
    (after (exec .send { linked [.ok] [] with replen := (6 : Word).setWidth 9 })).err = .ok ∧
    (after (exec .send { State.reset with replen := (6 : Word).setWidth 9 })).err ≠ .ok := by decide

theorem witness_StepKeepsTheInvariant :
    (sentInit []).Inv ∧ ∃ t, step (sentInit []) = .next t := ⟨sentInit_inv [], _, rfl⟩

theorem witness_StepKeepsTheWireClean :
    (sentInit []).Inv ∧ (sentInit []).WireClean ∧ ∃ t, step (sentInit []) = .next t :=
  ⟨sentInit_inv [], sentInit_clean [], _, rfl⟩

/-- Each way an access is not admitted, and states whose next line is none. -/
theorem witness_NothingStopsButANotAdmittedAccess :
    (host (.rd 0x0004 2)).AtNotAdmittedAccess ∧ (host (.rd 0x0006 4)).AtNotAdmittedAccess ∧
    (host (.rd 0x0040 4)).AtNotAdmittedAccess ∧ (host (.rd 0x0000 4)).AtNotAdmittedAccess ∧
    (host (.wr 0x10004 4 0)).AtNotAdmittedAccess ∧ (host (.wr 0x0004 4 0)).AtNotAdmittedAccess ∧
    ¬ State.reset.AtNotAdmittedAccess ∧ ¬ (host .reset).AtNotAdmittedAccess ∧
    ¬ (host (.jump (.goto 9))).AtNotAdmittedAccess ∧ ¬ (host (.wire [0xA1])).AtNotAdmittedAccess :=
  ⟨.inl ⟨_, _, _, rfl, by decide⟩, .inl ⟨_, _, _, rfl, by decide⟩, .inl ⟨_, _, _, rfl, by decide⟩,
    .inl ⟨_, _, _, rfl, by decide⟩, .inr ⟨_, _, _, _, rfl, .inr (.inr (.inl rfl))⟩,
    .inr ⟨_, _, _, _, rfl, .inr (.inr (.inr ⟨_, rfl, rfl⟩))⟩, nofun, nofun, nofun, nofun⟩

/-- A wire row, a write to DST, and a write to CMD, which is neither. -/
theorem witness_BlockActsOnlyOnCmdWritesAndReset :
    (host (.wire initBytes)).host.pending = .wire initBytes :: [] ∧
    (∃ t, step (host (.wire initBytes)) = .next t) ∧ Line.wire initBytes ≠ .reset ∧
    (∀ off width w, Line.wire initBytes ≠ .wr off width w) ∧
    (host (wrReg .dst 0x34)).host.pending = wrReg .dst 0x34 :: [] ∧ (∃ t, step (host (wrReg .dst 0x34)) = .next t) ∧
    wrReg .dst 0x34 ≠ .reset ∧ (∀ width w, wrReg .dst 0x34 ≠ .wr 0x000 width w) ∧ Buf.reply.access = .readOnly :=
  ⟨rfl, ⟨_, rfl⟩, nofun, nofun, rfl, ⟨_, rfl⟩, nofun,
    fun _ _ h => absurd (Line.wr.inj h).1 (by decide), rfl⟩

end Sys2Proof.Tests
end

section
/-! O52: the block acts only on the host's CMD writes and reset. A wire row expands, so it moves the host
alone; a host write elsewhere than CMD stores one value, which no operation writes. -/

namespace Sys2Proof.Machine

/-! Wire rows: every one of them moves the host and nothing else (log 1). -/

/-- Bytes that decode as a packet are the packet row. -/
theorem eq_packet_of_decodePacket {bs : List Byte} {i : Instr} (h : decodePacket bs = .ok i) :
    ∃ d r c, i = .ssm2Packet d r c := by
  unfold decodePacket at h
  split at h
  · split at h
    · split at h
      · split at h
        · injection h with h
          exact ⟨_, _, _, h.symm⟩
        · cases h
      · cases h
    · cases h
  · cases h

/-- Bytes that decode at all are the row of a command or the packet row. -/
theorem decodeWire_ok_cases {bs : List Byte} {i : Instr} (h : decodeWire bs = .ok i) :
    (∃ c : Command, i = c.instr) ∨ ∃ d r c, i = .ssm2Packet d r c := by
  unfold decodeWire at h
  split at h
  · cases h
  · split at h
    · exact .inr (eq_packet_of_decodePacket h)
    · split at h
      · injection h with h
        exact .inl ⟨_, h.symm⟩
      · cases h

/-- Handing over bytes, a wire row or none (log 6), moves the host and nothing else. -/
theorem issue_wire_frame {bs : List Byte} {s t : State} (h : carryOut (issue (.wire bs) s) = .next t) :
    t = { s with host := t.host } := by
  unfold issue at h
  split at h
  · rename_i i hd
    rcases decodeWire_ok_cases hd with ⟨c, rfl⟩ | ⟨d, r, c, rfl⟩
    · rw [carryOut_issue, exec_command] at h
      injection h with h
      exact h ▸ rfl
    · rw [carryOut_issue, exec_packet] at h
      injection h with h
      exact h ▸ rfl
  · injection h with h
    exact h ▸ rfl

/-- A line that is no write and no reset moves the host and nothing else (rules R5, R65). -/
theorem runLine_frame_of_not_wr {l : Line} {s t : State} (h : carryOut (runLine l s) = .next t)
    (hr : l ≠ .reset) (hw : ∀ off width w, l ≠ .wr off width w) : t = { s with host := t.host } := by
  cases l with
  | rd off width =>
    simp only [runLine, hostRead] at h
    split at h
    · cases h
    · injection h with h
      exact h ▸ rfl
  | wr off width w => exact absurd rfl (hw off width w)
  | reset => exact absurd rfl hr
  | wire bs => exact issue_wire_frame h
  | label k =>
    injection h with h
    exact h ▸ rfl
  | jump a =>
    injection h with h
    obtain ⟨ls, ha⟩ := act_eq a s
    exact h ▸ ha ▸ rfl
  | ifErr nonzero a =>
    injection h with h
    obtain ⟨ls, ha⟩ := act_eq a s
    rw [← h, ha]
    split <;> rfl

/-! What a host write comes to (rules R62, R64). -/

theorem locate_of_checkAccess_ok {off width : Nat} {l : Loc} (h : checkAccess off width = .ok l) :
    off % 4 = 0 ∧ locate off = some l := by
  unfold checkAccess at h
  split at h
  · cases h
  · split at h
    · cases h
    · split at h
      · injection h with h
        subst h
        exact ⟨by omega, ‹_›⟩
      · cases h

theorem checkAccess_of_checkWrite_ok {off width : Nat} {l : Loc} (h : checkWrite off width = .ok l) :
    checkAccess off width = .ok l := by
  unfold checkWrite at h
  split at h
  · cases h
  · split at h
    · cases h
    · exact h ▸ ‹_›
    · exact h ▸ ‹_›

/-- An admitted write reaches CMD at offset 0 alone (rule R21). -/
theorem offset_of_checkWrite_cmd {off width : Nat} (h : checkWrite off width = .ok (.reg .cmd)) : off = 0 := by
  obtain ⟨h4, hl⟩ := locate_of_checkAccess_ok (checkAccess_of_checkWrite_ok h)
  rcases offset_of_locate h4 hl with ⟨r, hr, ho⟩ | ⟨b, i, -, he, -⟩
  · cases hr
    exact ho
  · cases he

/-- A host write elsewhere than at CMD's offset stores a register or an element (rule R64). -/
theorem hostWrite_ne_cmd_cases {off width : Nat} {w : Word} {s t : State} (h0 : off ≠ 0)
    (h : carryOut (hostWrite off width w s) = .next t) :
    (∃ r, t = writeReg r w s) ∨ ∃ b i, i < b.size ∧ t = writeElem b i w s := by
  unfold hostWrite at h
  split at h
  · cases h
  · exact absurd (offset_of_checkWrite_cmd ‹_›) h0
  · rename_i l _ hl
    injection h with h
    subst h
    rcases checkWrite_ok hl with ⟨r, rfl⟩ | ⟨b, i, hi, rfl⟩
    · exact .inl ⟨r, rfl⟩
    · exact .inr ⟨b, i, hi, rfl⟩

/-! What only operations write (rules R23, R24, R30 to R38, R64). -/

/-- `t` has of `s` everything that only operations and reset write. -/
def SameOperationResults (s t : State) : Prop :=
  t.err = s.err ∧ t.csumOk = s.csumOk ∧ t.cdlen = s.cdlen ∧ t.txlen = s.txlen ∧ t.echolen = s.echolen ∧
  t.rplen = s.rplen ∧ t.txlog = s.txlog ∧ t.env = s.env ∧
  ∀ b j, b.access = .readOnly → j < b.size → readElem b j t = readElem b j s

/-- Two states that differ in the host alone have the same operation results. -/
theorem sameOperationResults_of_host {s t : State} (h : t = { s with host := t.host }) :
    SameOperationResults s t := by
  rw [h]
  exact ⟨rfl, rfl, rfl, rfl, rfl, rfl, rfl, rfl, fun _ _ _ _ => rfl⟩

theorem sameOperationResults_writeReg (r : Reg) (w : Word) (s : State) :
    SameOperationResults s (writeReg r w s) := by
  have hmem : (writeReg r w s).mem = s.mem := by cases r <;> rfl
  refine ⟨?_, ?_, ?_, ?_, ?_, ?_, ?_, ?_, fun b j _ _ => readElem_congr fun k _ _ => by rw [hmem]⟩ <;>
    cases r <;> rfl

/-- A host write to an element leaves every element of a read-only buffer: it stores in a buffer the host may
write, and none of those overlaps a read-only one. -/
theorem readElem_writeElem_of_readOnly {b b' : Buf} {i j : Nat} (hb' : b'.access = .readOnly)
    (hi : i < b.size) (hj : j < b'.size) (w : Word) (s : State) :
    readElem b' j (writeElem b i w s) = readElem b' j s := by
  refine readElem_congr fun k hlo hhi => ?_
  have hone : b'.elemBytes = 1 := by cases b' <;> simp [Buf.access, Buf.elemBytes] at hb' ⊢
  obtain rfl : k = b'.elemAddr j := by omega
  have hne : b ≠ b' → b'.elemAddr j ≠ b.elemAddr i := fun h => (Buf.elemAddr_ne h hi hj).symm
  have h4 := elemAddr_aligned b i
  have h4' := elemAddr_aligned b' j
  cases b with
  | alist =>
    have h0 := hne (by rintro rfl; cases hb')
    exact Memory.read_writeAddress_of_ne _ _ _ _ ⟨h0, by omega, by omega⟩
  | wval => exact Memory.read_write_ne _ _ (hne (by rintro rfl; cases hb'))
  | rxraw => exact Memory.read_write_ne _ _ (hne (by rintro rfl; cases hb'))
  | cdata | txbuf | reply => rfl

theorem sameOperationResults_writeElem {b : Buf} {i : Nat} (hi : i < b.size) (w : Word) (s : State) :
    SameOperationResults s (writeElem b i w s) := by
  refine ⟨?_, ?_, ?_, ?_, ?_, ?_, ?_, ?_, fun b' j hb' hj => readElem_writeElem_of_readOnly hb' hi hj w s⟩ <;>
    cases b <;> rfl

/-- A line that is no write to CMD and no reset leaves what only operations write (rules R24, R64, R65). -/
theorem runLine_sameOperationResults {l : Line} {s t : State} (h : carryOut (runLine l s) = .next t)
    (hr : l ≠ .reset) (hw : ∀ width w, l ≠ .wr 0x000 width w) : SameOperationResults s t := by
  cases l with
  | wr off width w =>
    have h0 : off ≠ 0 := by
      rintro rfl
      exact hw width w rfl
    rcases hostWrite_ne_cmd_cases h0 h with ⟨r, rfl⟩ | ⟨b, i, hi, rfl⟩
    · exact sameOperationResults_writeReg r w s
    · exact sameOperationResults_writeElem hi w s
  | _ => exact sameOperationResults_of_host (runLine_frame_of_not_wr h hr nofun)

/-- Settles O52: the step is that of the host's next line, the host having moved past it, and neither clause
looks at where the host stands. -/
theorem blockActsOnlyOnCmdWritesAndReset : Obligations.BlockActsOnlyOnCmdWritesAndReset := by
  intro s t l rest hp hs hr
  rw [step_of_pending hp] at hs
  constructor
  · intro hw
    have hframe : t = { s.continueAt rest with host := t.host } := runLine_frame_of_not_wr hs hr hw
    exact hframe
  · intro hw
    have hsame : SameOperationResults (s.continueAt rest) t := runLine_sameOperationResults hs hr hw
    exact hsame

end Sys2Proof.Machine
end

section
/-! What a host access reads and stores (rules R21, R29, R61, R64): one lemma for each of registers and
elements, the one written and the others. -/

namespace Sys2Proof.Machine

/-! Registers. -/

/-- A line that reads a register other than CMD. -/
theorem runLine_rdReg {r : Reg} (hr : r ≠ .cmd) (s : State) :
    runLine (rdReg r) s = .done (answerRead (.reg r) s) := by
  cases r with
  | cmd => exact absurd rfl hr
  | _ => rfl

/-- A written RW register reads as the word's low bits (rule R21). -/
theorem toNat_readReg_writeReg {r : Reg} (ha : r.access = .readWrite) (w : Word) (s : State) :
    (readReg r (writeReg r w s)).toNat = w.toNat % 2 ^ r.width := by
  cases r <;> simp only [Reg.access, reduceCtorEq] at ha <;>
    simp only [readReg, writeReg, Reg.width, BitVec.toNat_setWidth] <;> omega

/-- A register write is seen by no other register's read, STATUS included: each RW register is a field of its own,
and STATUS is made of none of them. -/
theorem readReg_writeReg_of_ne {r r' : Reg} (h : r' ≠ r) (w : Word) (s : State) :
    readReg r' (writeReg r w s) = readReg r' s := by
  cases r <;> cases r' <;> simp_all only [ne_eq, not_true_eq_false, readReg, writeReg] <;> rfl

/-- A register write leaves the storage, the wire, the environment and the host. -/
theorem writeReg_frame (r : Reg) (w : Word) (s : State) :
    (writeReg r w s).mem = s.mem ∧ (writeReg r w s).txlog = s.txlog ∧ (writeReg r w s).env = s.env ∧
      (writeReg r w s).host = s.host := by
  cases r <;> exact ⟨rfl, rfl, rfl, rfl⟩

/-! Elements. -/

/-- A line that reads an element of a buffer. -/
theorem runLine_rdElem (b : Buf) {i : Nat} (hi : i < b.size) (s : State) :
    runLine (rdElem b i) s = .done (answerRead (.elem b i) s) := by
  simp only [runLine, rdElem, hostRead, checkRead, checkAccess, elemAddr_aligned, locate_elem b hi, Loc.access]
  cases b <;> rfl

/-- An element of a buffer other than ALIST is the byte at its offset, zero-extended (rule R61). -/
theorem readElem_of_ne_alist {b : Buf} (hb : b ≠ .alist) (i : Nat) (s : State) :
    readElem b i s = (s.mem.read (b.elemAddr i)).setWidth 32 := by
  cases b with
  | alist => exact absurd rfl hb
  | _ => rfl

theorem toNat_readElem_alist (i : Nat) (s : State) :
    (readElem .alist i s).toNat = (s.mem.readAddress (Buf.alist.elemAddr i)).toNat :=
  BitVec.toNat_setWidth_of_le (by decide)

theorem toNat_readElem_of_ne_alist {b : Buf} (hb : b ≠ .alist) (i : Nat) (s : State) :
    (readElem b i s).toNat = (s.mem.read (b.elemAddr i)).toNat := by
  rw [readElem_of_ne_alist hb]
  exact BitVec.toNat_setWidth_of_le (by decide)

/-- Where elements of a one-byte buffer read the same, so do their bytes. -/
theorem read_eq_of_readElem_eq {b : Buf} (hb : b ≠ .alist) {i : Nat} {s t : State}
    (h : readElem b i t = readElem b i s) : t.mem.read (b.elemAddr i) = s.mem.read (b.elemAddr i) :=
  BitVec.eq_of_toNat_eq (by rw [← toNat_readElem_of_ne_alist hb, h, toNat_readElem_of_ne_alist hb])

theorem elemBytes_le (b : Buf) : b.elemBytes ≤ 3 := by cases b <;> decide

/-- Different elements are at different offsets. -/
theorem elemAddr_ne_of_ne {b b' : Buf} {i j : Nat} (h : ¬ (b' = b ∧ j = i)) (hi : i < b.size) (hj : j < b'.size) :
    b'.elemAddr j ≠ b.elemAddr i := by
  by_cases hb : b' = b
  · subst hb
    have hji : j ≠ i := fun e => h ⟨rfl, e⟩
    simp only [Buf.elemAddr]
    omega
  · exact Buf.elemAddr_ne hb hj hi

/-- A host write to an element changes storage alone. -/
theorem writeElem_frame (b : Buf) (i : Nat) (w : Word) (s : State) :
    writeElem b i w s = { s with mem := (writeElem b i w s).mem } := by cases b <;> rfl

theorem wf_writeElem {s : State} (h : s.mem.wf = true) (b : Buf) (i : Nat) (w : Word) :
    (writeElem b i w s).mem.wf = true := by
  cases b with
  | alist => exact Memory.wf_writeAddress h _ _
  | wval | rxraw => exact Memory.wf_write h _ _
  | cdata | txbuf | reply => exact h

/-- A host write to an element leaves every byte that is none of the element's. -/
theorem read_writeElem_of_outside (b : Buf) (i : Nat) (w : Word) (s : State) {k : Nat}
    (hk : k < b.elemAddr i ∨ b.elemAddr i + b.elemBytes ≤ k) :
    (writeElem b i w s).mem.read k = s.mem.read k := by
  cases b with
  | alist =>
    simp only [Buf.elemBytes] at hk
    exact Memory.read_writeAddress_of_ne _ _ _ _ (by omega)
  | wval | rxraw =>
    simp only [Buf.elemBytes] at hk
    exact Memory.read_write_ne _ _ (by omega)
  | cdata | txbuf | reply => rfl

/-- A written element of an RW buffer reads as the word's low bits (rules R29, R61). -/
theorem toNat_readElem_writeElem {b : Buf} (ha : b.access = .readWrite) {s : State} (h : s.mem.wf = true) (i : Nat)
    (w : Word) : (readElem b i (writeElem b i w s)).toNat = w.toNat % 2 ^ (8 * b.elemBytes) := by
  cases b with
  | alist =>
    rw [toNat_readElem_alist, writeElem, Memory.readAddress_writeAddress h]
    exact BitVec.toNat_setWidth _ _
  | wval | rxraw =>
    rw [toNat_readElem_of_ne_alist (by decide), writeElem, Memory.read_write h, if_pos rfl]
    exact BitVec.toNat_setWidth _ _
  | cdata | txbuf | reply => cases ha

/-- A host write to an element is seen by no other element's read, in whatever buffer. -/
theorem readElem_writeElem_of_ne {b b' : Buf} {i j : Nat} (h : ¬ (b' = b ∧ j = i)) (hi : i < b.size)
    (hj : j < b'.size) (w : Word) (s : State) : readElem b' j (writeElem b i w s) = readElem b' j s := by
  refine readElem_congr fun k hlo hhi => read_writeElem_of_outside b i w s ?_
  have hne := elemAddr_ne_of_ne h hi hj
  have h4 := elemAddr_aligned b i
  have h4' := elemAddr_aligned b' j
  have h3 := elemBytes_le b
  have h3' := elemBytes_le b'
  omega

/-- A store within a buffer is seen by no element's read of another buffer. -/
theorem readElem_storeIn_of_ne {b b' : Buf} (h : b' ≠ b) {bs : List Byte} (hbs : bs.length ≤ b.size) {j : Nat}
    (hj : j < b'.size) (s : State) : readElem b' j (storeIn b bs s) = readElem b' j s := by
  refine readElem_congr fun k hlo hhi => read_storeIn_of_ne b bs s k fun i hi => ?_
  have hne := Buf.elemAddr_ne h hj (j := i) (by omega)
  have h4 := elemAddr_aligned b i
  have h4' := elemAddr_aligned b' j
  have h3' := elemBytes_le b'
  omega

/-! The host accesses as steps. -/

/-- Settles O6: the step is the register's write. -/
theorem hostRegisterWriteStoresLowBits : Obligations.HostRegisterWriteStoresLowBits := by
  intro s r w rest ha hp
  obtain ⟨hmem, hlog, henv, hhost⟩ := writeReg_frame r w (s.continueAt rest)
  refine ⟨writeReg r w (s.continueAt rest), ?_, toNat_readReg_writeReg ha w _, fun r' hr' => ?_, hmem, hlog, henv, hhost⟩
  · rw [step_of_pending hp, runLine_wrReg ha, carryOut_done]
  · rw [readReg_writeReg_of_ne hr']
    rfl

/-- Settles O7: the step is the element's write, and no two elements share a byte. -/
theorem hostElementWriteStoresLowBits : Obligations.HostElementWriteStoresLowBits := by
  intro s b i w rest hw ha hi hp
  refine ⟨writeElem b i w (s.continueAt rest), ?_, toNat_readElem_writeElem ha (s := s.continueAt rest) hw i w,
    fun b' j hj hne => ?_, writeElem_frame b i w (s.continueAt rest)⟩
  · rw [step_of_pending hp, runLine_wrElem ha hi, carryOut_done]
  · rw [readElem_writeElem_of_ne hne hi hj]
    rfl

/-- A host read's answer goes to the host, which had moved past the line. -/
theorem step_rdReg {s : State} {r : Reg} (hr : r ≠ .cmd) {rest : List Line} (hp : s.host.pending = rdReg r :: rest) :
    step s = .next (answerRead (.reg r) (s.continueAt rest)) := by
  rw [step_of_pending hp, runLine_rdReg hr, carryOut_done]

theorem step_rdElem {s : State} {b : Buf} {i : Nat} (hi : i < b.size) {rest : List Line}
    (hp : s.host.pending = rdElem b i :: rest) :
    step s = .next (answerRead (.elem b i) (s.continueAt rest)) := by
  rw [step_of_pending hp, runLine_rdElem b hi, carryOut_done]

/-- Settles O8: a host read answers and moves the host alone; a register or element is at most 32 bits wide, so
zero-extending it keeps its value. -/
theorem hostReadsHaveNoSideEffect : Obligations.HostReadsHaveNoSideEffect := by
  refine ⟨fun s r rest hr hp => ?_, fun s b i rest hi hp => ?_, fun s => ?_, fun s b i => ?_⟩
  · exact ⟨_, step_rdReg hr hp, rfl, rfl, rfl, rfl⟩
  · exact ⟨_, step_rdElem hi hp, rfl, rfl, rfl, rfl, rfl⟩
  · refine ⟨rfl, ?_, ?_, ?_, ?_, ?_, ?_, ?_, ?_, ?_, ?_, ?_, ?_, ?_, ?_⟩ <;>
      exact BitVec.toNat_setWidth_of_le (by decide)
  · refine ⟨?_, fun hb => toNat_readElem_of_ne_alist hb i s⟩
    rintro rfl
    exact toNat_readElem_alist i s

/-! STATUS (rules R23, R26, R210). -/

theorem extractLsb'_statusWord_err (s : State) : s.statusWord.extractLsb' 0 4 = s.err.code := by
  unfold State.statusWord
  rw [BitVec.extractLsb'_append_eq_of_add_le (by decide), BitVec.extractLsb'_append_eq_of_add_le (by decide),
    BitVec.extractLsb'_append_eq_right]

theorem getLsbD_statusWord_csumOk (s : State) : s.statusWord.getLsbD 4 = s.csumOk := by
  unfold State.statusWord
  rw [BitVec.getLsbD_append, if_pos (by decide), BitVec.getLsbD_append, if_pos (by decide), BitVec.getLsbD_append,
    if_neg (by decide)]
  simp

theorem getLsbD_statusWord_link (s : State) : s.statusWord.getLsbD 5 = s.link := by
  unfold State.statusWord
  rw [BitVec.getLsbD_append, if_pos (by decide), BitVec.getLsbD_append, if_neg (by decide)]
  simp

theorem extractLsb'_statusWord_high (s : State) : s.statusWord.extractLsb' 6 26 = 0 :=
  BitVec.extractLsb'_append_eq_left

/-- LINK has no storage of its own (rule R26). -/
theorem link_iff (s : State) : s.link = true ↔ s.echolen ≠ 0 := decide_eq_true_iff

/-- Settles O3: STATUS is its four fields side by side, ERR's code the lowest. -/
theorem statusWordFields : Obligations.StatusWordFields :=
  ⟨fun s => ⟨extractLsb'_statusWord_err s, getLsbD_statusWord_csumOk s,
    (getLsbD_statusWord_link s).symm ▸ link_iff s, extractLsb'_statusWord_high s⟩,
    rfl, rfl, rfl, rfl, rfl, rfl, rfl, rfl, rfl⟩

end Sys2Proof.Machine
end

section
/-! What each kind of instruction can change: the ones that build from the host's operands, the parser and
checker, SEND, and RECV. -/

namespace Sys2Proof.Machine

/-- The instructions that only build: NOP, FRAME, the ENC operations and the wire rows. The others read a reply,
check a frame or ask the transport. -/
def buildsOnly : Instr → Bool
  | .parse | .verifyRx | .verifyTx | .send | .recv => false
  | _ => true

/-- The states an instruction that only builds can end in. -/
inductive Built (s : State) : State → Prop
  | finished : Built s (finish s)
  | notFramed : Built s (notFramed s)
  | framed (h : s.cdlen ≠ 0) : Built s (framed s)
  | notEncoded : Built s (notEncoded s)
  | encoded (c : Command) (hc : c.wf = true) : Built s (encoded c s)
  | moved (ls : List Line) : Built s (s.continueAt ls)

theorem built_frameOp (s : State) : Built s (frameOp s) := by
  rcases frameOp_cases s with ⟨-, h⟩ | ⟨hc, h⟩
  · exact h ▸ .notFramed
  · exact h ▸ .framed hc

theorem built_encOp (c : Command) (s : State) : Built s (encOp c s) := by
  rcases encOp_cases c s with h | ⟨c', hc, h⟩
  · exact h ▸ .notEncoded
  · exact h ▸ .encoded c' hc

/-- An instruction that only builds ends in one of those states; an ENC operation is `encOp` of a command of its
kind, whatever operands that command has. -/
theorem built_of_exec {i : Instr} (hi : buildsOnly i = true) {s t : State} (h : exec i s = .next t) : Built s t := by
  cases i with
  | parse | verifyRx | verifyTx | send | recv => cases hi
  | nop => exact Host.Outcome.next.inj h ▸ .finished
  | frame => exact Host.Outcome.next.inj h ▸ built_frameOp s
  | encRdblk => exact Host.Outcome.next.inj h ▸ built_encOp (.readBlock 0 0) s
  | encRdaddr => exact Host.Outcome.next.inj h ▸ built_encOp (.readSingleAddresses []) s
  | encWrblk => exact Host.Outcome.next.inj h ▸ built_encOp (.writeBlock 0 []) s
  | encWraddr => exact Host.Outcome.next.inj h ▸ built_encOp (.writeSingleAddress 0 0) s
  | encInit => exact Host.Outcome.next.inj h ▸ built_encOp .initRequest s
  | _ => exact Host.Outcome.next.inj h ▸ .moved _

/-- Building changes the storage, the two lengths, ERR and the host, and nothing else. -/
theorem Built.frame {s t : State} (h : Built s t) :
    t = { s with mem := t.mem, cdlen := t.cdlen, txlen := t.txlen, err := t.err, host := t.host } := by
  cases h <;> rfl

/-- A packet around the command data fits in TXBUF (rule R85). -/
theorem packetOf_command_length_le (s : State) :
    (packetOf s.dst s.src s.command).length ≤ Buf.txbuf.size := by
  simp only [packetOf_length, command_length, Buf.size, Config.maxTx]
  omega

theorem Built.readElem_reply {s t : State} (h : Built s t) {j : Nat} (hj : j < Buf.reply.size) :
    readElem .reply j t = readElem .reply j s := by
  cases h with
  | framed => exact readElem_storeIn_of_ne (by decide) (packetOf_command_length_le s) hj s
  | encoded c hc => exact readElem_storeIn_of_ne (b := .cdata) (by decide) (encodeCommand_bounds hc).2 hj s
  | _ => rfl

/-! PARSE and VERIFY. -/

theorem parseOp_frame (s : State) :
    parseOp s = { s with mem := (parseOp s).mem, rplen := (parseOp s).rplen, err := (parseOp s).err } := by
  rcases parseOp_cases s with ⟨-, h⟩ | ⟨-, -, h⟩ | ⟨-, -, h⟩ <;> rw [h] <;> rfl

theorem verifyOp_frame (f : List Byte) (s : State) :
    verifyOp f s = { s with csumOk := (verifyOp f s).csumOk, err := (verifyOp f s).err } := by
  rcases verifyOp_cases f s with ⟨-, h⟩ | ⟨-, h⟩ <;> rw [h]

/-- A reply that was not delivered: RPLEN is 0 and REPLY is as it was (rule R34). -/
def ReplyRefused (s t : State) : Prop :=
  t.rplen = 0 ∧ ∀ j, j < Buf.reply.size → readElem .reply j t = readElem .reply j s

theorem parseOp_ok_or_refused (s : State) : (parseOp s).err = .ok ∨ ReplyRefused s (parseOp s) := by
  rcases parseOp_cases s with ⟨-, h⟩ | ⟨-, -, h⟩ | ⟨-, -, h⟩ <;> rw [h]
  · exact .inr ⟨rfl, fun _ _ => rfl⟩
  · exact .inr ⟨rfl, fun _ _ => rfl⟩
  · exact .inl rfl

/-! SEND. -/

/-- Whatever the answer, what reached the wire is what was handed over or its first bytes (rule R182). -/
theorem sentBytes_prefix (bs : List Byte) (a : WriteAnswer) : sentBytes bs a <+: bs := by
  cases a with
  | ok => exact List.prefix_refl bs
  | ioError n => exact List.take_prefix n bs

theorem sendOp_txlog (s : State) : ∃ bs, (sendOp s).txlog = s.txlog ++ bs ∧ bs <+: s.packet := by
  have hnone : ∃ bs, s.txlog = s.txlog ++ bs ∧ bs <+: s.packet :=
    ⟨[], (List.append_nil _).symm, List.nil_prefix⟩
  have hsent : ∃ bs, s.txlog ++ sentBytes s.packet (nextWrite s.packet s) = s.txlog ++ bs ∧ bs <+: s.packet :=
    ⟨_, rfl, sentBytes_prefix _ _⟩
  rcases sendOp_cases s with ⟨-, h⟩ | ⟨-, -, h⟩ | ⟨-, -, -, h⟩ | ⟨-, -, n, -, h⟩ <;> rw [h]
  · exact hnone
  · exact hnone
  · exact hsent
  · exact hsent

theorem sendOp_arms {s : State} (hok : (sendOp s).err = .ok) : s.echolen = 0 ∧ (sendOp s).echolen = s.txlen := by
  rcases sendOp_cases s with ⟨-, h⟩ | ⟨-, -, h⟩ | ⟨he, -, -, h⟩ | ⟨-, -, n, -, h⟩ <;> rw [h] at hok ⊢
  · cases hok
  · cases hok
  · exact ⟨he, rfl⟩
  · cases hok

theorem sendOp_disarms {s : State} (herr : (sendOp s).err = .transportError) : (sendOp s).echolen = 0 := by
  rcases sendOp_cases s with ⟨-, h⟩ | ⟨-, -, h⟩ | ⟨-, -, -, h⟩ | ⟨-, -, n, -, h⟩ <;> rw [h] at herr ⊢
  · cases herr
  · cases herr
  · cases herr
  · rfl

/-! RECV. -/

/-- REPLEN outside 1..260: the transport is not asked (rule R181). -/
theorem recvOp_of_not_asked {s : State} (h : s.replen = 0 ∨ 260 < s.replen.toNat) :
    recvOp s = noReply .invalidArgument s := if_pos h

theorem recvBytes_echolen (e n : Nat) (b : List Byte) (s : State) : (recvBytes e n b s).echolen = s.echolen := by
  rcases recvBytes_cases e n b s with ⟨-, h⟩ | ⟨-, -, h⟩ | ⟨-, -, -, h⟩ | ⟨-, -, -, h⟩ <;> rw [h] <;> rfl

theorem recvOp_echolen_of_asked {s : State} (h0 : s.replen ≠ 0) (h260 : s.replen.toNat ≤ 260) :
    (recvOp s).echolen = 0 := by
  rcases recvOp_cases s with ⟨hbad, -⟩ | ⟨-, -, ⟨-, h⟩ | ⟨b, -, -, h⟩⟩
  · exact (hbad.elim h0 (Nat.not_lt.2 h260)).elim
  · rw [h]
    rfl
  · rw [h, recvBytes_echolen]
    rfl

theorem recvBytes_ok_or_refused (e n : Nat) (b : List Byte) (s : State) :
    (recvBytes e n b s).err = .ok ∨ ReplyRefused s (recvBytes e n b s) := by
  rcases recvBytes_cases e n b s with ⟨-, h⟩ | ⟨-, -, h⟩ | ⟨-, -, -, h⟩ | ⟨-, -, -, h⟩ <;> rw [h]
  · exact .inr ⟨rfl, fun _ _ => rfl⟩
  · exact .inr ⟨rfl, fun _ _ => rfl⟩
  · exact .inr ⟨rfl, fun _ _ => rfl⟩
  · exact .inl rfl

/-- The raw bytes of a read reach no element of REPLY, also where they pass the end of RXRAW (log 12). -/
theorem readElem_reply_received {b : List Byte} (hb : b.length ≤ 771) (s : State) (j : Nat) :
    readElem .reply j (received b s) = readElem .reply j s :=
  congrArg (BitVec.setWidth 32) (read_reply_received hb s j)

theorem recvOp_ok_or_refused (s : State) : (recvOp s).err = .ok ∨ ReplyRefused s (recvOp s) := by
  rcases recvOp_cases s with ⟨-, h⟩ | ⟨-, h260, ⟨-, h⟩ | ⟨b, -, hlen, h⟩⟩ <;> rw [h]
  · exact .inr ⟨rfl, fun _ _ => rfl⟩
  · exact .inr ⟨rfl, fun _ _ => rfl⟩
  · have hb : b.length ≤ 771 := by omega
    refine (recvBytes_ok_or_refused _ _ b _).imp_right fun ⟨hlen0, hsame⟩ => ⟨hlen0, fun j hj => ?_⟩
    exact (hsame j hj).trans (readElem_reply_received hb (asked s) j)

/-! What an instruction writes, by the rules that name the few that do. -/

/-- CSUM_OK is written by the two VERIFY operations and RECV alone (rule R25). -/
theorem exec_keeps_csumOk {i : Instr} (hrx : i ≠ .verifyRx) (htx : i ≠ .verifyTx) (hr : i ≠ .recv) {s t : State}
    (h : exec i s = .next t) : t.csumOk = s.csumOk := by
  cases i with
  | verifyRx => exact absurd rfl hrx
  | verifyTx => exact absurd rfl htx
  | recv => exact absurd rfl hr
  | parse => rw [← Host.Outcome.next.inj h, parseOp_frame]
  | send => rw [← Host.Outcome.next.inj h, sendOp_frame]
  | _ => rw [(built_of_exec rfl h).frame]

/-- Settles O17: a RECV that does not ask the transport ends in `noReply`, which leaves CSUM_OK too. -/
theorem onlyVerifyAndRecvWriteCsumOk : Obligations.OnlyVerifyAndRecvWriteCsumOk := by
  refine ⟨fun i s t hrx htx hr h => exec_keeps_csumOk hrx htx hr h, fun s t hbad h => ?_⟩
  rw [← Host.Outcome.next.inj h, recvOp_of_not_asked hbad]
  rfl

/-- ECHOLEN and the wire's log are written by SEND and RECV alone (rules R32, R38). -/
theorem exec_keeps_link {i : Instr} (hs : i ≠ .send) (hr : i ≠ .recv) {s t : State} (h : exec i s = .next t) :
    t.echolen = s.echolen ∧ t.txlog = s.txlog := by
  cases i with
  | send => exact absurd rfl hs
  | recv => exact absurd rfl hr
  | parse =>
    rw [← Host.Outcome.next.inj h, parseOp_frame]
    exact ⟨rfl, rfl⟩
  | verifyRx | verifyTx =>
    rw [← Host.Outcome.next.inj h, verifyOp_frame]
    exact ⟨rfl, rfl⟩
  | _ =>
    rw [(built_of_exec rfl h).frame]
    exact ⟨rfl, rfl⟩

/-- A RECV reads and puts nothing on the wire. -/
theorem recvOp_txlog (s : State) : (recvOp s).txlog = s.txlog := by rw [recvOp_frame rfl]

/-- Settles O18: a SEND appends what the transport took of the packet, every other instruction nothing. -/
theorem onlySendReachesTheWire : Obligations.OnlySendReachesTheWire := by
  intro i s t h
  have hquiet : t.txlog = s.txlog → ∃ bs, t.txlog = s.txlog ++ bs ∧ bs <+: s.packet ∧ (i ≠ .send → bs = []) :=
    fun hlog => ⟨[], hlog.trans (List.append_nil _).symm, List.nil_prefix, fun _ => rfl⟩
  by_cases hs : i = .send
  · subst hs
    obtain ⟨bs, hlog, hpre⟩ := sendOp_txlog s
    exact ⟨bs, Host.Outcome.next.inj h ▸ hlog, hpre, fun hne => absurd rfl hne⟩
  · by_cases hr : i = .recv
    · subst hr
      exact hquiet (Host.Outcome.next.inj h ▸ recvOp_txlog s)
    · exact hquiet (exec_keeps_link hs hr h).2

/-- A PARSE or RECV either succeeds or refuses the reply. -/
theorem exec_ok_or_refused {i : Instr} (hi : i = .parse ∨ i = .recv) {s t : State} (h : exec i s = .next t) :
    t.err = .ok ∨ ReplyRefused s t := by
  rcases hi with rfl | rfl
  · exact Host.Outcome.next.inj h ▸ parseOp_ok_or_refused s
  · exact Host.Outcome.next.inj h ▸ recvOp_ok_or_refused s

/-- No instruction but PARSE and RECV stores in REPLY. -/
theorem exec_keeps_reply {i : Instr} (hi : ¬ (i = .parse ∨ i = .recv)) {s t : State} (h : exec i s = .next t) {j : Nat}
    (hj : j < Buf.reply.size) : readElem .reply j t = readElem .reply j s := by
  cases i with
  | parse => exact absurd (.inl rfl) hi
  | recv => exact absurd (.inr rfl) hi
  | send =>
    rw [← Host.Outcome.next.inj h, sendOp_frame]
    rfl
  | verifyRx | verifyTx =>
    rw [← Host.Outcome.next.inj h, verifyOp_frame]
    rfl
  | _ => exact (built_of_exec rfl h).readElem_reply hj

/-- Settles O19: only PARSE and RECV reach REPLY, and those two refuse the reply where they do not succeed. -/
theorem onlyGoodParseOrRecvWritesReply : Obligations.OnlyGoodParseOrRecvWritesReply := by
  intro i s t h
  by_cases hi : i = .parse ∨ i = .recv
  · rcases exec_ok_or_refused hi h with hok | ⟨hlen, hsame⟩
    · exact ⟨fun _ hne => absurd hok hne, fun hn => absurd ⟨hi, hok⟩ hn⟩
    · exact ⟨fun _ _ => hlen, fun _ => hsame⟩
  · exact ⟨fun hi' => absurd hi' hi, fun _ _ hj => exec_keeps_reply hi h hj⟩

/-- Settles O20: reset, SEND and RECV each by its own law. -/
theorem echoLengthIsArmedBySendAndClearedByRecv : Obligations.EchoLengthIsArmedBySendAndClearedByRecv := by
  refine ⟨fun s rest hp => ⟨_, step_of_pending hp, rfl⟩, fun i s t h => ⟨?_, ?_, ?_, ?_, ?_⟩⟩
  · exact fun hs hr => (exec_keeps_link hs hr h).1
  · rintro rfl hok
    obtain rfl : sendOp s = t := Host.Outcome.next.inj h
    exact sendOp_arms hok
  · rintro rfl herr
    obtain rfl : sendOp s = t := Host.Outcome.next.inj h
    exact sendOp_disarms herr
  · rintro rfl h0 h260
    obtain rfl : recvOp s = t := Host.Outcome.next.inj h
    exact recvOp_echolen_of_asked h0 h260
  · rintro rfl hbad
    obtain rfl : recvOp s = t := Host.Outcome.next.inj h
    rw [recvOp_of_not_asked hbad]
    rfl

end Sys2Proof.Machine
end

section
/-! The invariant of the block and the clean wire: reset, every operation, every host access and so every
step. -/

namespace Sys2Proof.Machine

/-! Reset. -/

/-- The invariant after reset: no command, no packet, no echo. -/
theorem reset_inv : State.reset.Inv where
  memWf := rfl
  memMapped := nofun
  command h := absurd rfl h
  packet h := absurd rfl h
  echo h := absurd rfl h
  reply := Nat.zero_le _
  noHandshake := nofun

/-- Nothing on the wire is a clean wire. -/
theorem wireClean_of_nil {s : State} (h : s.txlog = []) : s.WireClean := ⟨[], h, nofun⟩

/-- Settles O48: by the values of `State.reset`, TXLOG's among them (log 8). -/
theorem resetMeetsTheInvariant : Obligations.ResetMeetsTheInvariant := ⟨reset_inv, wireClean_of_nil rfl⟩

/-! What the invariant bounds. -/

theorem IsCommandPacket.length_le {f : List Byte} (h : IsCommandPacket f) : f.length ≤ Config.maxTx := by
  obtain ⟨d, r, c, hc, rfl⟩ := h
  have hle := (encodeCommand_bounds hc).2
  simp only [packetOf_length, Config.maxCdata, Config.maxTx] at hle ⊢
  omega

theorem State.Inv.txlen_le {s : State} (h : s.Inv) : s.txlen.toNat ≤ Config.maxTx := by
  by_cases h0 : s.txlen = 0
  · simp [h0]
  · rw [← packet_length]
    exact (h.packet h0).length_le

theorem State.Inv.echolen_le {s : State} (h : s.Inv) : s.echolen.toNat ≤ Config.maxTx := by
  by_cases h0 : s.echolen = 0
  · simp [h0]
  · obtain ⟨old, f, hf, -, hlen⟩ := h.echo h0
    exact hlen ▸ hf.length_le

/-! Updates that keep the invariant. -/

section
variable {s : State}

theorem State.Inv.raise {e : Err} (he : e ≠ .handshakeFailed) (h : s.Inv) : (raise e s).Inv :=
  ⟨h.memWf, h.memMapped, h.command, h.packet, h.echo, h.reply, he⟩

theorem State.Inv.finish (h : s.Inv) : (finish s).Inv := h.raise (e := .ok) nofun

theorem State.Inv.of_host {t : State} (ht : t = { s with host := t.host }) (h : s.Inv) : t.Inv :=
  ht ▸ ⟨h.memWf, h.memMapped, h.command, h.packet, h.echo, h.reply, h.noHandshake⟩

theorem State.Inv.with_csumOk (b : Bool) (h : s.Inv) : State.Inv { s with csumOk := b } :=
  ⟨h.memWf, h.memMapped, h.command, h.packet, h.echo, h.reply, h.noHandshake⟩

theorem State.Inv.with_rxcount (n : BitVec 10) (h : s.Inv) : State.Inv { s with rxcount := n } :=
  ⟨h.memWf, h.memMapped, h.command, h.packet, h.echo, h.reply, h.noHandshake⟩

theorem State.Inv.with_rplen {n : BitVec 10} (hn : n.toNat ≤ Config.maxRx) (h : s.Inv) :
    State.Inv { s with rplen := n } :=
  ⟨h.memWf, h.memMapped, h.command, h.packet, h.echo, hn, h.noHandshake⟩

/-- The exchange over, no echo is expected. -/
theorem State.Inv.asked (h : s.Inv) : (asked s).Inv :=
  ⟨h.memWf, h.memMapped, h.command, h.packet, fun h0 => absurd rfl h0, h.reply, h.noHandshake⟩

theorem State.Inv.writeReg (r : Reg) (w : Word) (h : s.Inv) : (writeReg r w s).Inv := by
  cases r <;> exact ⟨h.memWf, h.memMapped, h.command, h.packet, h.echo, h.reply, h.noHandshake⟩

theorem State.Inv.blockReset (s : State) : (blockReset s).Inv :=
  ⟨reset_inv.memWf, reset_inv.memMapped, reset_inv.command, reset_inv.packet, fun h0 => absurd rfl h0,
    reset_inv.reply, reset_inv.noHandshake⟩

/-! Storage. -/

/-- Storage may change as long as it stays canonical and mapped and holds the same command and packet. -/
theorem State.Inv.of_mem {t : State} (ht : t = { s with mem := t.mem }) (hw : t.mem.wf = true)
    (hm : ∀ c ∈ t.mem, Memory.mapped c.1 = true) (hc : t.command = s.command) (hp : t.packet = s.packet)
    (h : s.Inv) : t.Inv where
  memWf := hw
  memMapped := hm
  command := by
    rw [hc, ht]
    exact h.command
  packet := by
    rw [hp, ht]
    exact h.packet
  echo := by
    rw [ht]
    exact h.echo
  reply := by
    rw [ht]
    exact h.reply
  noHandshake := by
    rw [ht]
    exact h.noHandshake

theorem cdlen_le (s : State) : s.cdlen.toNat ≤ Buf.cdata.size := by
  simp only [Buf.size, Config.maxCdata]
  omega

/-- A store within another buffer than CDATA and TXBUF keeps the invariant. -/
theorem State.Inv.storeIn {b : Buf} {bs : List Byte} (hbs : bs.length ≤ b.size) (hc : b ≠ .cdata) (hp : b ≠ .txbuf)
    (h : s.Inv) : (storeIn b bs s).Inv :=
  h.of_mem rfl (Memory.wf_store h.memWf _ _) (mapped_storeIn h.memMapped hbs)
    (load_storeIn_ne hc s hbs (cdlen_le s)) (load_storeIn_ne hp s hbs h.txlen_le)

/-- Every byte of an element is a mapped offset. -/
theorem mapped_elemByte (b : Buf) {i k : Nat} (hi : i < b.size) (hk : k < b.elemBytes) :
    Memory.mapped (b.elemAddr i + k) = true := by
  have h : b.stores (b.elemAddr i + k) = true := by
    simp only [Buf.stores, decide_eq_true_eq]
    cases b <;> simp [Buf.elemAddr, Buf.base, Buf.size, Buf.elemBytes] at hi hk ⊢ <;> omega
  simp only [Memory.mapped, List.any_eq_true]
  exact ⟨b, by cases b <;> simp [Buf.all], h⟩

theorem mapped_writeElem (h : ∀ c ∈ s.mem, Memory.mapped c.1 = true) {b : Buf} {i : Nat} (hi : i < b.size) (w : Word) :
    ∀ c ∈ (writeElem b i w s).mem, Memory.mapped c.1 = true := by
  intro c hc
  cases b with
  | alist =>
    rcases Memory.mem_writeAddress hc with hc | hk | hk | hk
    · exact h c hc
    · exact hk ▸ mapped_elemByte .alist hi (k := 0) (by decide)
    · exact hk ▸ mapped_elemByte .alist hi (k := 1) (by decide)
    · exact hk ▸ mapped_elemByte .alist hi (k := 2) (by decide)
  | wval | rxraw =>
    rcases Memory.mem_write hc with hc | ⟨rfl, -⟩
    · exact h c hc
    · exact mapped_elem _ hi
  | cdata | txbuf | reply => exact h c hc

/-- A host write leaves the elements of a read-only buffer as they were. -/
theorem load_writeElem_of_readOnly {b b' : Buf} {i n : Nat} (hb' : b'.access = .readOnly) (hi : i < b.size)
    (hn : n ≤ b'.size) (w : Word) (s : State) : (writeElem b i w s).mem.load b'.base n = s.mem.load b'.base n :=
  Memory.load_congr fun j hj => read_eq_of_readElem_eq (b := b') (by rintro rfl; cases hb')
    (readElem_writeElem_of_readOnly hb' hi (Nat.lt_of_lt_of_le hj hn) w s)

/-- A host write reaches neither CDATA nor TXBUF, which are read-only (rule R29). -/
theorem State.Inv.writeElem {b : Buf} {i : Nat} (hi : i < b.size) (w : Word) (h : s.Inv) : (writeElem b i w s).Inv := by
  have hframe := writeElem_frame b i w s
  refine h.of_mem hframe (wf_writeElem h.memWf b i w) (mapped_writeElem h.memMapped hi w) ?_ ?_
  · rw [State.command, hframe]
    exact load_writeElem_of_readOnly (b' := .cdata) rfl hi (cdlen_le s) w s
  · rw [State.packet, hframe]
    exact load_writeElem_of_readOnly (b' := .txbuf) rfl hi h.txlen_le w s

/-! The operations. -/

theorem State.Inv.notFramed (h : s.Inv) : (notFramed s).Inv :=
  ⟨h.memWf, h.memMapped, h.command, fun h0 => absurd rfl h0, h.echo, h.reply, nofun⟩

/-- FRAME stores in TXBUF the packet of the command that the invariant promises in CDATA. -/
theorem State.Inv.framed (hcd : s.cdlen ≠ 0) (h : s.Inv) : (framed s).Inv where
  memWf := Memory.wf_store h.memWf _ _
  memMapped := mapped_storeIn (b := .txbuf) h.memMapped (packetOf_command_length_le s)
  command _ := by
    have hkept : (Machine.framed s).command = s.command :=
      load_storeIn_ne (b := .txbuf) (by decide) s (packetOf_command_length_le s) (cdlen_le s)
    rw [hkept]
    exact h.command hcd
  packet _ := by
    obtain ⟨c, hc, hcmd⟩ := h.command hcd
    exact ⟨s.dst, s.src, c, hc, by rw [packet_framed h.memWf, hcmd]⟩
  echo := h.echo
  reply := h.reply
  noHandshake := nofun

theorem State.Inv.notEncoded (h : s.Inv) : (notEncoded s).Inv :=
  ⟨h.memWf, h.memMapped, fun h0 => absurd rfl h0, h.packet, h.echo, h.reply, nofun⟩

/-- An ENC stores its command in CDATA and leaves the packet in TXBUF. -/
theorem State.Inv.encoded {c : Command} (hc : c.wf = true) (h : s.Inv) : (encoded c s).Inv where
  memWf := Memory.wf_store h.memWf _ _
  memMapped := mapped_storeIn (b := .cdata) h.memMapped (encodeCommand_bounds hc).2
  command _ := ⟨c, hc, command_encoded hc h.memWf⟩
  packet := by
    have hkept : (Machine.encoded c s).packet = s.packet :=
      load_storeIn_ne (b := .cdata) (by decide) s (encodeCommand_bounds hc).2 h.txlen_le
    rw [hkept]
    exact h.packet
  echo := h.echo
  reply := h.reply
  noHandshake := nofun

theorem State.Inv.built {t : State} (hb : Built s t) (h : s.Inv) : t.Inv := by
  cases hb with
  | finished => exact h.finish
  | notFramed => exact h.notFramed
  | framed hcd => exact h.framed hcd
  | notEncoded => exact h.notEncoded
  | encoded c hc => exact h.encoded hc
  | moved ls => exact h.of_host rfl

theorem State.Inv.noReply {e : Err} (he : e ≠ .handshakeFailed) (h : s.Inv) : (noReply e s).Inv :=
  (h.with_rplen (n := 0) (by decide)).raise he

theorem State.Inv.replied {bs : List Byte} (hbs : bs.length ≤ Config.maxRx) (h : s.Inv) : (replied bs s).Inv := by
  have hlen : (BitVec.ofNat 10 bs.length).toNat ≤ Config.maxRx := Nat.le_trans (Nat.mod_le _ _) hbs
  exact ((h.storeIn (b := .reply) hbs (by decide) (by decide)).with_rplen hlen).finish

theorem State.Inv.parseOp (h : s.Inv) : (parseOp s).Inv := by
  rcases parseOp_cases s with ⟨-, hs⟩ | ⟨-, -, hs⟩ | ⟨h520, -, hs⟩ <;> rw [hs]
  · exact h.noReply nofun
  · exact h.noReply nofun
  · refine h.replied ?_
    simp only [List.length_drop, raw_length, Config.maxRx]
    omega

theorem State.Inv.verifyOp (f : List Byte) (h : s.Inv) : (verifyOp f s).Inv := by
  rcases verifyOp_cases f s with ⟨-, hs⟩ | ⟨-, hs⟩ <;> rw [hs]
  · exact (h.with_csumOk true).finish
  · exact (h.with_csumOk false).raise (e := .checksumMismatch) nofun

/-- A SEND that succeeds has put the packet at the end of the wire's log; one that fails expects no echo. -/
theorem State.Inv.sendOp (h : s.Inv) : (sendOp s).Inv := by
  rcases sendOp_cases s with ⟨-, hs⟩ | ⟨-, -, hs⟩ | ⟨-, htx, ha, hs⟩ | ⟨-, -, n, -, hs⟩ <;> rw [hs]
  · exact h.raise nofun
  · exact h.raise nofun
  · have hlog : s.txlog ++ sentBytes s.packet (nextWrite s.packet s) = s.txlog ++ s.packet := by rw [ha]; rfl
    exact ⟨h.memWf, h.memMapped, h.command, h.packet,
      fun _ => ⟨s.txlog, s.packet, h.packet htx, hlog, (packet_length s).symm⟩, h.reply, nofun⟩
  · exact ⟨h.memWf, h.memMapped, h.command, h.packet, fun h0 => absurd rfl h0, h.reply, nofun⟩

theorem State.Inv.received {b : List Byte} (hb : b.length ≤ Config.maxRx) (h : s.Inv) : (received b s).Inv :=
  (h.storeIn (b := .rxraw) hb (by decide) (by decide)).with_rxcount _

theorem State.Inv.recvBytes (e n : Nat) {b : List Byte} (hb : b.length ≤ Config.maxRx) (h : s.Inv) :
    (recvBytes e n b s).Inv := by
  rcases recvBytes_cases e n b s with ⟨-, hs⟩ | ⟨-, -, hs⟩ | ⟨-, -, -, hs⟩ | ⟨-, -, -, hs⟩ <;> rw [hs]
  · exact (h.with_csumOk false).noReply nofun
  · exact (h.with_csumOk false).noReply nofun
  · exact (h.with_csumOk false).noReply nofun
  · refine (h.with_csumOk true).replied (Nat.le_trans ?_ hb)
    simp

/-- A RECV asks for at most MAX_TX + MAX_REPLY bytes, so what comes fits in RXRAW. -/
theorem State.Inv.recvOp (h : s.Inv) : (recvOp s).Inv := by
  rcases recvOp_cases s with ⟨-, hs⟩ | ⟨-, h260, ⟨-, hs⟩ | ⟨b, -, hlen, hs⟩⟩ <;> rw [hs]
  · exact h.noReply nofun
  · exact ((h.asked.with_rxcount 0).with_csumOk false).noReply nofun
  · have hecho := h.echolen_le
    have hb : b.length ≤ Config.maxRx := by
      simp only [Config.maxTx, Config.maxRx] at hecho ⊢
      omega
    exact (h.asked.received hb).recvBytes _ _ hb

end

/-! Instructions and steps. -/

theorem exec_keeps_inv {i : Instr} {s t : State} (h : s.Inv) (hx : exec i s = .next t) : t.Inv := by
  cases i with
  | parse => exact Host.Outcome.next.inj hx ▸ h.parseOp
  | verifyRx => exact Host.Outcome.next.inj hx ▸ h.verifyOp s.replyBytes
  | verifyTx => exact Host.Outcome.next.inj hx ▸ h.verifyOp s.packet
  | send => exact Host.Outcome.next.inj hx ▸ h.sendOp
  | recv => exact Host.Outcome.next.inj hx ▸ h.recvOp
  | _ => exact h.built (built_of_exec rfl hx)

theorem lineForm_keeps_inv {u t : State} (h : u.Inv) (hform : LineForm u t) : t.Inv := by
  rcases hform with hhost | rfl | ⟨r, w, rfl⟩ | ⟨b, i, w, hi, rfl⟩ | rfl | ⟨c, i, -, hx⟩
  · exact h.of_host hhost
  · exact h.raise nofun
  · exact h.writeReg r w
  · exact h.writeElem hi w
  · exact State.Inv.blockReset u
  · exact exec_keeps_inv h hx

/-- Settles O49: the host moves, and whatever its line comes to keeps the invariant. -/
theorem stepKeepsTheInvariant : Obligations.StepKeepsTheInvariant := by
  intro s t h hs
  obtain ⟨u, hu, hform⟩ := step_form hs
  exact lineForm_keeps_inv (h.of_host hu) hform

/-! The wire. -/

theorem State.WireClean.of_txlog_eq {s t : State} (ht : t.txlog = s.txlog) (h : s.WireClean) : t.WireClean := by
  rw [State.WireClean, ht]
  exact h

/-- A clean wire stays clean when a whole or cut packet is put after what it carried. -/
theorem State.WireClean.append {s t : State} {bs p : List Byte} (ht : t.txlog = s.txlog ++ bs) (hbs : bs <+: p)
    (hp : IsCommandPacket p) (h : s.WireClean) : t.WireClean := by
  obtain ⟨fs, hlog, hfs⟩ := h
  refine ⟨fs ++ [bs], by simp [ht, hlog], fun f hf => ?_⟩
  rcases List.mem_append.1 hf with hf | hf
  · exact hfs f hf
  · exact ⟨p, hp, List.mem_singleton.1 hf ▸ hbs⟩

/-- What an instruction appends are first bytes of the packet, which the invariant promises to be a command's;
with TXLEN 0 they are none. -/
theorem exec_keeps_wireClean {i : Instr} {s t : State} (h : s.Inv) (hw : s.WireClean) (hx : exec i s = .next t) :
    t.WireClean := by
  obtain ⟨bs, hlog, hpre, -⟩ := onlySendReachesTheWire i s t hx
  by_cases htx : s.txlen = 0
  · have hnil : s.packet = [] := List.eq_nil_of_length_eq_zero (by simp [htx])
    rw [hnil, List.prefix_nil] at hpre
    exact hw.of_txlog_eq (by rw [hlog, hpre, List.append_nil])
  · exact hw.append hlog hpre (h.packet htx)

theorem lineForm_keeps_wireClean {u t : State} (h : u.Inv) (hw : u.WireClean) (hform : LineForm u t) :
    t.WireClean := by
  rcases hform with hhost | rfl | ⟨r, w, rfl⟩ | ⟨b, i, w, -, rfl⟩ | rfl | ⟨c, i, -, hx⟩
  · exact hw.of_txlog_eq (by rw [hhost])
  · exact hw.of_txlog_eq rfl
  · obtain ⟨-, hlog, -, -⟩ := writeReg_frame r w u
    exact hw.of_txlog_eq hlog
  · exact hw.of_txlog_eq (by rw [writeElem_frame])
  · exact hw.of_txlog_eq rfl
  · exact exec_keeps_wireClean h hw hx

/-- Settles O50: only an instruction reaches the wire, and with a command's packet, whole or cut short. -/
theorem stepKeepsTheWireClean : Obligations.StepKeepsTheWireClean := by
  intro s t h hw hs
  obtain ⟨u, hu, hform⟩ := step_form hs
  exact lineForm_keeps_wireClean (h.of_host hu) (hw.of_txlog_eq (by rw [hu])) hform

end Sys2Proof.Machine
end

section
/-! The map of the register space, which host accesses stop, and a step that hands over a code (rules R60, R62,
R63, R80, R89). -/

namespace Sys2Proof.Machine

/-! The map (rule R60). -/

/-- The word at an aligned offset is the register or the element that stands there: `offset_of_locate` one way,
`locate_reg` and `locate_elem` the other. -/
theorem locate_eq_some_iff {off : Nat} {l : Loc} (h4 : off % 4 = 0) :
    locate off = some l ↔
      (∃ r, l = .reg r ∧ off = r.offset) ∨ ∃ b i, i < b.size ∧ l = .elem b i ∧ off = b.elemAddr i := by
  refine ⟨offset_of_locate h4, ?_⟩
  rintro (⟨r, rfl, rfl⟩ | ⟨b, i, hi, rfl, rfl⟩)
  · exact locate_reg r
  · exact locate_elem b hi

/-- Settles O4: `locate_eq_some_iff`, and the offsets of the two tables by evaluation. -/
theorem mappedWordsAreRegistersAndElements : Obligations.MappedWordsAreRegistersAndElements :=
  ⟨fun _ _ h4 => locate_eq_some_iff h4, by decide⟩

/-! What is admitted (rule R62). -/

/-- An access is refused, or admitted to a word with a property: by width, alignment and the map, in that order. -/
theorem checkAccess_error_or_iff {off width : Nat} (P : Loc → Prop) :
    ((∃ f, checkAccess off width = .error f) ∨ ∃ l, checkAccess off width = .ok l ∧ P l) ↔
      width ≠ 4 ∨ off % 4 ≠ 0 ∨ locate off = none ∨ ∃ l, locate off = some l ∧ P l := by
  unfold checkAccess
  by_cases hw : width = 4
  · by_cases h4 : off % 4 = 0
    · cases hl : locate off <;> simp [hw, h4]
    · simp [hw, h4]
  · simp [hw]

/-- A write-only word is found exactly where CMD is. -/
theorem locate_writeOnly_iff {off : Nat} :
    (∃ l, locate off = some l ∧ l.access = .writeOnly) ↔ locate off = some (.reg .cmd) := by
  constructor
  · rintro ⟨l, hl, ha⟩
    rw [hl, eq_cmd_of_access ha]
  · exact fun hl => ⟨_, hl, rfl⟩

theorem checkRead_error_iff {off width : Nat} :
    (∃ f, checkRead off width = .error f) ↔
      width ≠ 4 ∨ off % 4 ≠ 0 ∨ locate off = none ∨ locate off = some (.reg .cmd) := by
  rw [← locate_writeOnly_iff, ← checkAccess_error_or_iff, checkRead]
  cases checkAccess off width with
  | error f => simp
  | ok l => cases ha : l.access <;> simp [ha]

theorem checkWrite_error_iff {off width : Nat} :
    (∃ f, checkWrite off width = .error f) ↔
      width ≠ 4 ∨ off % 4 ≠ 0 ∨ locate off = none ∨ ∃ l, locate off = some l ∧ l.access = .readOnly := by
  rw [← checkAccess_error_or_iff, checkWrite]
  cases checkAccess off width with
  | error f => simp
  | ok l => cases ha : l.access <;> simp [ha]

/-! What stops (rules R62, R216). -/

/-- No instruction faults, so a line stops the machine only when it comes to a fault itself. -/
theorem carryOut_eq_fault_iff {x : Fetched} {f : Fault} : carryOut x = .fault f ↔ x = .fault f := by
  cases x with
  | done s => simp
  | issue i s =>
    obtain ⟨t, ht⟩ := exec_next i s
    simp [ht]
  | fault g => simp

/-- No step is refused. -/
theorem step_fault_or_next (s : State) : (∃ f, step s = .fault f) ∨ ∃ t, step s = .next t := by
  unfold step
  cases fetch s with
  | done t => exact .inr ⟨t, rfl⟩
  | issue i t => exact .inr (exec_next i t)
  | fault f => exact .inl ⟨f, rfl⟩

theorem issue_ne_fault (c : Code) (s : State) (f : Fault) : issue c s ≠ .fault f := by
  unfold issue
  split <;> nofun

theorem hostRead_eq_fault_iff {off width : Nat} {s : State} {f : Fault} :
    hostRead off width s = .fault f ↔ checkRead off width = .error f := by
  unfold hostRead
  split <;> simp_all

theorem hostWrite_eq_fault_iff {off width : Nat} {w : Word} {s : State} {f : Fault} :
    hostWrite off width w s = .fault f ↔ checkWrite off width = .error f := by
  unfold hostWrite
  split <;> simp_all [issue_ne_fault]

/-- Settles O5: a step at a host access faults exactly where the port's check of that access does. -/
theorem onlyNotAdmittedAccessesStop : Obligations.OnlyNotAdmittedAccessesStop := by
  constructor
  · intro s off width rest hp
    refine ⟨?_, step_fault_or_next s⟩
    rw [step_of_pending hp]
    simp only [carryOut_eq_fault_iff, runLine, hostRead_eq_fault_iff]
    exact checkRead_error_iff
  · intro s off width w rest hp
    refine ⟨?_, step_fault_or_next s⟩
    rw [step_of_pending hp]
    simp only [carryOut_eq_fault_iff, runLine, hostWrite_eq_fault_iff]
    exact checkWrite_error_iff

/-! A step that hands over a code (rules R63, R80, R89). -/

theorem issue_of_decode {c : Code} {i : Instr} (h : decode c = .ok i) (s : State) : issue c s = .issue i s := by
  rw [issue, h]

/-- Settles O14: the line of a code is issued, and what is issued is executed. -/
theorem stepRunsTheDecodedInstruction : Obligations.StepRunsTheDecodedInstruction := by
  intro s c i rest hs hd
  rw [step_of_pending hs, runLine_codeLine, issue_of_decode hd, carryOut_issue]

end Sys2Proof.Machine
end

section
/-! Decoding and encoding (rules R80 to R88): the operation words, the command layouts and the packet, each read
back from its code and each code the only one of what it is read as. -/

namespace Sys2Proof.Machine

/-! The operation words (rules R81, R82). -/

/-- A word whose bits 31..5 are 0 is its low five bits. -/
theorem extractLsb'_high_eq_zero_iff (w : Word) : w.extractLsb' 5 27 = 0 ↔ w.toNat < 32 := by
  rw [← BitVec.toNat_inj, BitVec.extractLsb'_toNat, Nat.shiftRight_eq_div_pow]
  have := w.isLt
  simp only [BitVec.ofNat_eq_ofNat, BitVec.toNat_ofNat]
  omega

theorem toNat_extractLsb'_low (w : Word) : (w.extractLsb' 0 5).toNat = w.toNat % 32 := by
  simp [BitVec.extractLsb'_toNat]

/-- The rows of rule R81's table, by the value of the operation word. -/
theorem decodeOpBits_eq_some_iff (n : Nat) (i : Instr) : decodeOpBits n = some i ↔
    (n = 0x00 ∧ i = .nop) ∨ (n = 0x01 ∧ i = .frame) ∨ (n = 0x02 ∧ i = .encRdblk) ∨ (n = 0x03 ∧ i = .encRdaddr) ∨
    (n = 0x04 ∧ i = .encWrblk) ∨ (n = 0x05 ∧ i = .encWraddr) ∨ (n = 0x06 ∧ i = .encInit) ∨ (n = 0x07 ∧ i = .parse) ∨
    (n = 0x08 ∧ i = .verifyRx) ∨ (n = 0x18 ∧ i = .verifyTx) ∨ (n = 0x09 ∧ i = .send) ∨ (n = 0x0A ∧ i = .recv) := by
  unfold decodeOpBits
  split <;> simp_all [eq_comm (a := i)]

/-- The decoder of operation words: the reserved bits are 0 and the low five bits are in the table (rule R82). -/
theorem decodeOp_eq_ok_iff (w : Word) (i : Instr) :
    decodeOp w = .ok i ↔ w.extractLsb' 5 27 = 0 ∧ decodeOpBits (w.extractLsb' 0 5).toNat = some i := by
  unfold decodeOp
  by_cases hz : w.extractLsb' 5 27 = 0
  · rw [if_pos hz]
    cases decodeOpBits (w.extractLsb' 0 5).toNat <;> simp [hz]
  · rw [if_neg hz]
    exact ⟨nofun, fun h => absurd h.1 hz⟩

/-- No row of the table has a value above 31, so the reserved bits and the low five are one test. -/
theorem decodeOp_eq_ok_iff_decodeOpBits (w : Word) (i : Instr) :
    decodeOp w = .ok i ↔ decodeOpBits w.toNat = some i := by
  rw [decodeOp_eq_ok_iff, extractLsb'_high_eq_zero_iff, toNat_extractLsb'_low]
  constructor
  · rintro ⟨hlt, h⟩
    rwa [Nat.mod_eq_of_lt hlt] at h
  · intro h
    have hlt : w.toNat < 32 := by
      have := (decodeOpBits_eq_some_iff _ _).1 h
      omega
    exact ⟨hlt, (Nat.mod_eq_of_lt hlt).symm ▸ h⟩

/-- Settles O12: the table of `decodeOpBits`, a word being its value. -/
theorem twelveOperationWords : Obligations.TwelveOperationWords := by
  intro w i
  rw [decode, decodeOp_eq_ok_iff_decodeOpBits, decodeOpBits_eq_some_iff]
  simp only [← BitVec.toNat_inj (x := w), BitVec.ofNat_eq_ofNat, BitVec.toNat_ofNat, Nat.reducePow, Nat.reduceMod]

/-- The low five bits that select no operation are those rule R82's last two tests name. -/
theorem decodeOpBits_eq_none_iff (b : BitVec 5) :
    decodeOpBits b.toNat = none ↔
      0xB ≤ (b.extractLsb' 0 4).toNat ∨ (b.getLsbD 4 = true ∧ b.extractLsb' 0 4 ≠ 0x8) := by
  revert b
  decide

/-- Rule R82's two tests of the low bits of a word. -/
theorem decodeOpBits_low_eq_none_iff (w : Word) :
    decodeOpBits (w.extractLsb' 0 5).toNat = none ↔
      0xB ≤ (w.extractLsb' 0 4).toNat ∨ (w.getLsbD 4 = true ∧ w.extractLsb' 0 4 ≠ 0x8) := by
  have hnibble : (w.extractLsb' 0 5).extractLsb' 0 4 = w.extractLsb' 0 4 := by
    ext k hk
    simp
  have hbit : (w.extractLsb' 0 5).getLsbD 4 = w.getLsbD 4 := by simp
  rw [decodeOpBits_eq_none_iff, hnibble, hbit]

/-- A word with a reserved bit set or no operation in its low bits is refused (rule R82). -/
theorem decodeOp_eq_error {w : Word} (h : w.extractLsb' 5 27 ≠ 0 ∨ decodeOpBits (w.extractLsb' 0 5).toNat = none) :
    decodeOp w = .error .illegalOperation := by
  cases hd : decodeOp w with
  | error e => rw [error_of_decodeOp hd]
  | ok i =>
    obtain ⟨hz, hs⟩ := (decodeOp_eq_ok_iff w i).1 hd
    rcases h with h | h
    · exact absurd hz h
    · rw [h] at hs
      cases hs

/-- A host line that hands over a code no instruction has (rule R82; log 6). -/
theorem step_of_decode_error {s : State} {c : Code} {rest : List Line} {e : DecodeError} (hs : s.handing c rest)
    (hd : decode c = .error e) : step s = .next (rejected c (s.continueAt rest)) := by
  rw [step_of_pending hs, runLine_codeLine, issue, hd]
  rfl

/-- Settles O11: rule R82's tests are `decodeOp`'s two ways to refuse; a refused word is `rejected`, another one's
instruction is executed. -/
theorem illegalWordsChangeOnlyErr : Obligations.IllegalWordsChangeOnlyErr := by
  intro w
  rw [← decodeOpBits_low_eq_none_iff]
  constructor
  · intro hbad s rest hp
    exact step_of_decode_error hp (decodeOp_eq_error hbad)
  · intro hgood
    obtain ⟨hz, hsome⟩ := not_or.1 hgood
    obtain ⟨i, hi⟩ := Option.ne_none_iff_exists'.1 hsome
    have hd : decode (.opWord w) = .ok i := (decodeOp_eq_ok_iff w i).2 ⟨not_not.1 hz, hi⟩
    exact ⟨i, hi, hd, fun s rest hp => stepRunsTheDecodedInstruction s _ i rest hp hd⟩

/-! The command layouts (rule R86). -/

/-- A well-formed command is read back from its data bytes. -/
theorem decodeCommand_encodeCommand {c : Command} (hc : c.wf = true) : decodeCommand (encodeCommand c) = .ok c := by
  cases c with
  | readBlock a n =>
    show Except.ok (Command.readBlock (ofBe24 _ _ _) n) = _
    rw [ofBe24_bytes]
  | readSingleAddresses as =>
    show decodeReadSingleAddresses (0x01 :: as.flatMap be24) = _
    simp [decodeReadSingleAddresses, decodeAddresses_flatMap, hc]
  | writeBlock a vs =>
    show decodeWriteBlock (a.extractLsb' 16 8 :: a.extractLsb' 8 8 :: a.extractLsb' 0 8 :: vs) = _
    simp only [decodeWriteBlock, ofBe24_bytes, hc, if_true]
  | writeSingleAddress a v =>
    show Except.ok (Command.writeSingleAddress (ofBe24 _ _ _) v) = _
    rw [ofBe24_bytes]
  | initRequest => rfl

/-- `c` is well-formed and its one code is the command byte `op` with `bs` after it. -/
def IsCodeOf (op : Byte) (bs : List Byte) (c : Command) : Prop := c.wf = true ∧ encodeCommand c = op :: bs

theorem isCodeOf_of_decodeReadBlock {bs : List Byte} {c : Command} (h : decodeReadBlock bs = .ok c) :
    IsCodeOf 0xA0 bs c := by
  unfold decodeReadBlock at h
  split at h
  · split at h
    · subst_vars
      obtain rfl := Except.ok.inj h
      exact ⟨rfl, by simp [encodeCommand, be24_ofBe24]⟩
    · cases h
  · cases h

theorem isCodeOf_of_decodeReadSingleAddresses {bs : List Byte} {c : Command}
    (h : decodeReadSingleAddresses bs = .ok c) : IsCodeOf 0xA8 bs c := by
  unfold decodeReadSingleAddresses at h
  split at h
  · cases h
  · split at h
    · split at h
      · split at h
        · rename_i has hwf
          subst_vars
          obtain rfl := Except.ok.inj h
          exact ⟨hwf, by simp [encodeCommand, eq_flatMap_of_decodeAddresses has]⟩
        · cases h
      · cases h
    · cases h

theorem isCodeOf_of_decodeWriteBlock {bs : List Byte} {c : Command} (h : decodeWriteBlock bs = .ok c) :
    IsCodeOf 0xB0 bs c := by
  unfold decodeWriteBlock at h
  split at h
  · split at h
    · rename_i hwf
      obtain rfl := Except.ok.inj h
      exact ⟨hwf, by simp [encodeCommand, be24_ofBe24]⟩
    · cases h
  · cases h

theorem isCodeOf_of_decodeWriteSingleAddress {bs : List Byte} {c : Command}
    (h : decodeWriteSingleAddress bs = .ok c) : IsCodeOf 0xB8 bs c := by
  unfold decodeWriteSingleAddress at h
  split at h
  · obtain rfl := Except.ok.inj h
    exact ⟨rfl, by simp [encodeCommand, be24_ofBe24]⟩
  · cases h

theorem isCodeOf_of_decodeInitRequest {bs : List Byte} {c : Command} (h : decodeInitRequest bs = .ok c) :
    IsCodeOf 0xBF bs c := by
  unfold decodeInitRequest at h
  split at h
  · obtain rfl := Except.ok.inj h
    exact ⟨rfl, rfl⟩
  · cases h

/-- Data bytes that are read as a command are that command's, and it is well-formed. -/
theorem encodeCommand_of_decodeCommand {bs : List Byte} {c : Command} (h : decodeCommand bs = .ok c) :
    c.wf = true ∧ encodeCommand c = bs := by
  cases bs with
  | nil => cases h
  | cons op rest =>
    simp only [decodeCommand] at h
    by_cases hA0 : op = 0xA0
    · rw [if_pos hA0] at h
      exact hA0 ▸ isCodeOf_of_decodeReadBlock h
    rw [if_neg hA0] at h
    by_cases hA8 : op = 0xA8
    · rw [if_pos hA8] at h
      exact hA8 ▸ isCodeOf_of_decodeReadSingleAddresses h
    rw [if_neg hA8] at h
    by_cases hB0 : op = 0xB0
    · rw [if_pos hB0] at h
      exact hB0 ▸ isCodeOf_of_decodeWriteBlock h
    rw [if_neg hB0] at h
    by_cases hB8 : op = 0xB8
    · rw [if_pos hB8] at h
      exact hB8 ▸ isCodeOf_of_decodeWriteSingleAddress h
    rw [if_neg hB8] at h
    by_cases hBF : op = 0xBF
    · rw [if_pos hBF] at h
      exact hBF ▸ isCodeOf_of_decodeInitRequest h
    rw [if_neg hBF] at h
    cases h

/-! The packet (rule R84). -/

/-- No command's data is empty, so a packet's data bytes say which command they are, or that there is none. -/
theorem decodePacketData_packetData {c : Option Command} (hc : ∀ c' ∈ c, c'.wf = true) :
    decodePacketData (packetData c) = .ok c := by
  cases c with
  | none => rfl
  | some c =>
    have hwf := hc c rfl
    have hd := decodeCommand_encodeCommand hwf
    obtain ⟨b, bs, hb⟩ := List.exists_cons_of_length_pos (encodeCommand_bounds hwf).1
    rw [packetData, hb]
    rw [hb] at hd
    simp only [decodePacketData, hd]

theorem packetData_of_decodePacketData {data : List Byte} {c : Option Command} (h : decodePacketData data = .ok c) :
    (∀ c' ∈ c, c'.wf = true) ∧ packetData c = data := by
  unfold decodePacketData at h
  split at h
  · obtain rfl := Except.ok.inj h
    exact ⟨nofun, rfl⟩
  · split at h
    · rename_i c' hc'
      obtain rfl := Except.ok.inj h
      obtain ⟨hwf, hbytes⟩ := encodeCommand_of_decodeCommand hc'
      exact ⟨by simpa using hwf, hbytes⟩
    · cases h

theorem packet_wf_iff (d r : Byte) (c : Option Command) :
    (Instr.ssm2Packet d r c).wf = true ↔ ∀ c' ∈ c, c'.wf = true := by
  cases c <;> simp [Instr.wf]

/-- The data of a packet's command fits in its one-byte dataLength (rule R85). -/
theorem packetData_length_le {c : Option Command} (hc : ∀ c' ∈ c, c'.wf = true) :
    (packetData c).length ≤ Config.maxCdata := by
  cases c with
  | none => exact Nat.zero_le _
  | some c => exact (encodeCommand_bounds (hc c rfl)).2

/-- A packet around at most 255 data bytes is read back as those bytes. -/
theorem decodePacket_tail {data : List Byte} (hlen : data.length ≤ Config.maxCdata) (d r : Byte) :
    decodePacket (packetOf d r data).tail =
      (decodePacketData data).map fun c => .ssm2Packet d r c := by
  have hn : (BitVec.ofNat 8 data.length).toNat = data.length := by
    simp only [Config.maxCdata] at hlen
    simp only [BitVec.toNat_ofNat]
    omega
  simp only [packetOf, List.cons_append, List.nil_append, List.tail_cons, decodePacket, hn, List.length_append,
    List.length_singleton, if_true, List.drop_left, List.take_left]
  cases decodePacketData data <;> rfl

/-- What is read as a packet is the packet's encoding: its length and checksum bytes are the ones the decoder
tests, its data those of its command. -/
theorem packetOf_of_decodePacket {bs : List Byte} {i : Instr} (h : decodePacket bs = .ok i) :
    i.wf = true ∧ encode i = .wire (Config.startByte :: bs) := by
  unfold decodePacket at h
  split at h
  · rename_i d r len rest
    split at h
    · rename_i hlen
      split at h
      · rename_i hsum
        split at h
        · rename_i c hc
          obtain rfl := Except.ok.inj h
          obtain ⟨hwf, hdata⟩ := packetData_of_decodePacketData hc
          have htake : (rest.take len.toNat).length = len.toNat := by simp [hlen]
          refine ⟨(packet_wf_iff d r c).2 hwf, ?_⟩
          rw [encode, hdata, packetOf, htake, BitVec.ofNat_toNat, BitVec.setWidth_eq]
          have hrest : rest.take len.toNat ++ rest.drop len.toNat = rest := List.take_append_drop _ _
          rw [hsum] at hrest
          simpa using hrest
        · cases h
      · cases h
    · cases h
  · cases h

/-! Every code. -/

/-- The start byte of a packet is no command byte, so a command's data bytes are read as a command. -/
theorem decodeWire_encodeCommand {c : Command} (hc : c.wf = true) : decodeWire (encodeCommand c) = .ok c.instr := by
  obtain ⟨b, bs, hb, hne⟩ : ∃ b bs, encodeCommand c = b :: bs ∧ b ≠ Config.startByte := by
    cases c <;> exact ⟨_, _, rfl, by decide⟩
  have hd := decodeCommand_encodeCommand hc
  rw [hb] at hd ⊢
  simp only [decodeWire, if_neg hne, hd]

theorem decodeWire_packetOf {c : Option Command} (hc : ∀ c' ∈ c, c'.wf = true) (d r : Byte) :
    decodeWire (packetOf d r (packetData c)) = .ok (.ssm2Packet d r c) := by
  have htail : decodeWire (packetOf d r (packetData c)) = decodePacket (packetOf d r (packetData c)).tail := rfl
  rw [htail, decodePacket_tail (packetData_length_le hc), decodePacketData_packetData hc]
  rfl

/-- Settles O9: an operation word is looked up in the table, a command row is read by its layout, a packet by its
header and then as its command. -/
theorem decodeOfEncodeIsTheInstruction : Obligations.DecodeOfEncodeIsTheInstruction := by
  intro i hi
  cases i with
  | ssm2ReadBlock a n => exact decodeWire_encodeCommand (c := .readBlock a n) hi
  | ssm2ReadSingleAddresses as => exact decodeWire_encodeCommand (c := .readSingleAddresses as) hi
  | ssm2WriteBlock a vs => exact decodeWire_encodeCommand (c := .writeBlock a vs) hi
  | ssm2WriteSingleAddress a v => exact decodeWire_encodeCommand (c := .writeSingleAddress a v) hi
  | ssm2InitRequest => exact decodeWire_encodeCommand (c := .initRequest) hi
  | ssm2Packet d r c => exact decodeWire_packetOf ((packet_wf_iff d r c).1 hi) d r
  | _ => rfl

/-- Settles O10: an accepted word is one of the twelve; accepted bytes are a packet's where they begin with its
start byte, else a command's. -/
theorem acceptedCodesAreEncodings : Obligations.AcceptedCodesAreEncodings := by
  intro code i h
  cases code with
  | opWord w =>
    rcases (twelveOperationWords w i).1 h with
      ⟨rfl, rfl⟩ | ⟨rfl, rfl⟩ | ⟨rfl, rfl⟩ | ⟨rfl, rfl⟩ | ⟨rfl, rfl⟩ | ⟨rfl, rfl⟩ | ⟨rfl, rfl⟩ | ⟨rfl, rfl⟩ |
      ⟨rfl, rfl⟩ | ⟨rfl, rfl⟩ | ⟨rfl, rfl⟩ | ⟨rfl, rfl⟩ <;> exact ⟨rfl, rfl⟩
  | wire bs =>
    simp only [decode, decodeWire] at h
    split at h
    · cases h
    · split at h
      · subst_vars
        exact packetOf_of_decodePacket h
      · split at h
        · rename_i c hc
          obtain rfl := Except.ok.inj h
          obtain ⟨hwf, hbytes⟩ := encodeCommand_of_decodeCommand hc
          exact ⟨c.instr_wf.trans hwf, by rw [Command.encode_instr, hbytes]⟩
        · cases h

/-- Settles O13: each written-out code is the encoding of its instruction. -/
theorem sampleCodesDecode : Obligations.SampleCodesDecode :=
  have h := decodeOfEncodeIsTheInstruction
  ⟨h .nop rfl, h .verifyTx rfl, h .recv rfl, h (.ssm2ReadBlock 0x123456 0xFF) rfl,
    h (.ssm2ReadSingleAddresses [0x00001C, 0x000008]) rfl, h (.ssm2Packet 0x10 0xF0 (some .initRequest)) rfl⟩

end Sys2Proof.Machine
end

section
/-! Host lines run one a step, and host control flow (rules R63, R89 to R95, R224): what a list of lines comes to,
put together from what its lines do; a wire row is such a list (log 1). -/

namespace Sys2Proof.Machine

/-! Control flow (rules R89, R224). -/

/-- `if ERR` takes its action where its test holds. -/
theorem step_ifErr_of_test {s : State} {nonzero : Bool} {a : Act} {rest : List Line}
    (hp : s.host.pending = .ifErr nonzero a :: rest) (htest : decide (s.seenErr ≠ 0) = nonzero) :
    step s = .next (act a (s.continueAt rest)) :=
  (step_of_pending hp).trans (congrArg Host.Outcome.next (if_pos htest))

/-- `if ERR` is passed where its test does not hold. -/
theorem step_ifErr_of_not_test {s : State} {nonzero : Bool} {a : Act} {rest : List Line}
    (hp : s.host.pending = .ifErr nonzero a :: rest) (htest : decide (s.seenErr ≠ 0) ≠ nonzero) :
    step s = .next (s.continueAt rest) :=
  (step_of_pending hp).trans (congrArg Host.Outcome.next (if_neg htest))

/-- Settles O16: a step is its line's, and a `goto` goes where `afterLabel` finds its label. -/
theorem controlFlowTouchesOnlyTheHost : Obligations.ControlFlowTouchesOnlyTheHost := by
  refine ⟨fun s hp => step_of_idle hp, fun s l rest hp => step_of_pending hp,
    fun s nonzero a rest hp => ⟨step_ifErr_of_test hp, step_ifErr_of_not_test hp⟩,
    fun s a rest hp => step_of_pending hp, fun s => rfl, fun s k => rfl, fun s l pre post hprog hpre => ?_,
    fun s l hprog => ?_⟩
  · rw [act, hprog, afterLabel_first hpre, Option.getD_some]
  · rw [act, afterLabel_missing hprog, Option.getD_none]

/-! What a list of lines comes to. -/

/-- Run one a step, the lines `ls` come to `f`, whatever lines follow them, and the host goes on with those. -/
def LinesDo (ls : List Line) (f : State → State) : Prop :=
  ∀ (s : State) (rest : List Line), runSteps ls.length (s.continueAt (ls ++ rest)) = .next ((f s).continueAt rest)

/-- An operation that does not look at the host and leaves it where it is. -/
def HostFree (f : State → State) : Prop :=
  ∀ (s : State) (h : HostAgent), f { s with host := h } = { f s with host := h }

theorem HostFree.host_eq {f : State → State} (hf : HostFree f) (s : State) : (f s).host = s.host := by
  have h : (f s).host = ({ f s with host := s.host } : State).host := congrArg State.host (hf s s.host)
  exact h

theorem HostFree.continueAt {f : State → State} (hf : HostFree f) (s : State) (ls : List Line) :
    f (s.continueAt ls) = (f s).continueAt ls := by
  rw [State.continueAt, hf, State.continueAt, hf.host_eq]

theorem LinesDo.append {ls ls' : List Line} {f g : State → State} (hf : LinesDo ls f) (hg : LinesDo ls' g) :
    LinesDo (ls ++ ls') (g ∘ f) := by
  intro s rest
  rw [List.length_append, List.append_assoc, run_add _ _ (hf s (ls' ++ rest))]
  exact hg (f s) rest

/-- A write to an RW register stores the low bits of its word. -/
theorem linesDo_wrReg {r : Reg} (ha : r.access = .readWrite) {w : Word} {f : State → State}
    (hf : ∀ s, writeReg r w s = f s) : LinesDo [wrReg r w] f := by
  intro s rest
  refine (run_wrReg ha (rest := rest) rfl).trans ?_
  rw [← hf]
  cases r <;> rfl

/-- The write of an instruction's word to CMD performs its operation. -/
theorem linesDo_opLine {i : Instr} (hi : i.wf = true) {f : State → State} (hf : HostFree f)
    (hx : ∀ s, exec i s = .next (f s)) : LinesDo [opLine i] f := by
  intro s rest
  refine (run_opLine (decodeOfEncodeIsTheInstruction i hi) (rest := rest) rfl (hx _)).trans ?_
  exact congrArg Host.Outcome.next (hf.continueAt s rest)

/-- The lines of a pseudo-operation placed before those still to run come to what they do, the host as before. -/
theorem LinesDo.run_placed {ls : List Line} {f : State → State} (h : LinesDo ls f) {s : State}
    (hs : (f s).host = s.host) : runSteps ls.length (s.continueAt (ls ++ s.host.pending)) = .next (f s) := by
  rw [h s s.host.pending, State.continueAt, ← hs]

/-! The lines of a command (rules R90 to R94). -/

theorem linesDo_wrElems_alist {as : List Address} (hl : as.length ≤ 84) :
    LinesDo (wrElems .alist 0 (as.map fun a => a.setWidth 32))
      fun s => { s with mem := s.mem.storeAddresses Buf.alist.base as } := by
  intro s rest
  rw [wrElems_length, List.length_map]
  exact run_wrElems_alist as 0 _ rest (by omega) rfl

theorem linesDo_wrElems_wval {vs : List Byte} (hl : vs.length ≤ 251) :
    LinesDo (wrElems .wval 0 (vs.map fun v => v.setWidth 32))
      fun s => { s with mem := s.mem.store Buf.wval.base vs } := by
  intro s rest
  rw [wrElems_length, List.length_map]
  exact run_wrElems_wval vs 0 _ rest (by omega) rfl

theorem linesDo_wrAddr (a : Address) : LinesDo [wrReg .addr (a.setWidth 32)] fun s => { s with addr := a } :=
  linesDo_wrReg rfl fun s => by simp [writeReg]

/-- The lines of a well-formed command load its operands and perform its ENC operation. -/
theorem linesDo_commandLines {c : Command} (hc : c.wf = true) : LinesDo (commandLines c) (buildCommand c) := by
  have henc {i : Instr} (hi : i.wf = true) (hx : ∀ s, exec i s = .next (encOp c s)) : LinesDo [opLine i] (encOp c) :=
    linesDo_opLine hi (encOp_host c) hx
  cases c with
  | readBlock a n =>
    have hcount : LinesDo [wrReg .count (BitVec.ofNat 32 (n.toNat + 1))]
        fun s => { s with count := BitVec.ofNat 9 (n.toNat + 1) } :=
      linesDo_wrReg rfl fun s => by simp [writeReg, BitVec.setWidth_ofNat_of_le]
    exact ((linesDo_wrAddr a).append hcount).append (henc (i := .encRdblk) rfl fun _ => rfl)
  | readSingleAddresses as =>
    simp only [Command.wf, decide_eq_true_eq, Config.maxAddrs] at hc
    have hnaddr : LinesDo [wrReg .naddr (BitVec.ofNat 32 as.length)]
        fun s => { s with naddr := BitVec.ofNat 7 as.length } :=
      linesDo_wrReg rfl fun s => by simp [writeReg, BitVec.setWidth_ofNat_of_le]
    exact (linesDo_wrElems_alist hc.2).append (hnaddr.append (henc (i := .encRdaddr) rfl fun _ => rfl))
  | writeBlock a vs =>
    simp only [Command.wf, decide_eq_true_eq, Config.maxWvals] at hc
    have hnval : LinesDo [wrReg .nval (BitVec.ofNat 32 vs.length)]
        fun s => { s with nval := BitVec.ofNat 8 vs.length } :=
      linesDo_wrReg rfl fun s => by simp [writeReg, BitVec.setWidth_ofNat_of_le]
    exact ((linesDo_wrAddr a).append (linesDo_wrElems_wval hc.2)).append
      (hnval.append (henc (i := .encWrblk) rfl fun _ => rfl))
  | writeSingleAddress a v =>
    have hvalue : LinesDo [wrReg .value (v.setWidth 32)] fun s => { s with value := v } :=
      linesDo_wrReg rfl fun s => by simp [writeReg]
    exact ((linesDo_wrAddr a).append hvalue).append (henc (i := .encWraddr) rfl fun _ => rfl)
  | initRequest => exact henc rfl fun _ => rfl

/-! The lines of a packet (rules R27, R110). -/

theorem linesDo_ends (d r : Byte) :
    LinesDo [wrReg .dst (d.setWidth 32), wrReg .src (r.setWidth 32)] (loadEnds d r) := by
  have hdst : LinesDo [wrReg .dst (d.setWidth 32)] fun s => { s with dst := d } :=
    linesDo_wrReg rfl fun s => by simp [writeReg]
  have hsrc : LinesDo [wrReg .src (r.setWidth 32)] fun s => { s with src := r } :=
    linesDo_wrReg rfl fun s => by simp [writeReg]
  exact hdst.append hsrc

theorem linesDo_frame : LinesDo [opLine .frame] frameOp := linesDo_opLine rfl frameOp_host fun _ => rfl

theorem linesDo_packetLines {c : Command} (hc : c.wf = true) (d r : Byte) :
    LinesDo (packetLines d r (some c)) fun s => frameOp (buildCommand c (loadEnds d r s)) :=
  ((linesDo_ends d r).append (linesDo_commandLines hc)).append linesDo_frame

/-- The lines of a packet without data leave no valid command and no packet (log 10). -/
theorem linesDo_packetLines_none (d r : Byte) :
    LinesDo (packetLines d r none)
      fun s => { s with dst := d, src := r, count := 0, cdlen := 0, txlen := 0, err := .invalidArgument } := by
  have hcount : LinesDo [wrReg .count 0] fun s => { s with count := 0 } :=
    linesDo_wrReg rfl fun s => by simp [writeReg]
  have henc : LinesDo [opLine .encRdblk] encRdblkOp := linesDo_opLine rfl (encOp_host (.readBlock 0 0)) fun _ => rfl
  exact ((linesDo_ends d r).append (hcount.append henc)).append linesDo_frame

theorem buildCommand_keeps_host (c : Command) (s : State) : (buildCommand c s).host = s.host :=
  HostFree.host_eq (buildCommand_host c) s

theorem frameOp_keeps_host (s : State) : (frameOp s).host = s.host := HostFree.host_eq frameOp_host s

/-- The lines of a command's row, placed, come to building the command (log 1). -/
theorem run_commandLines {c : Command} (hc : c.wf = true) (s : State) :
    runSteps (commandLines c).length (s.continueAt (commandLines c ++ s.host.pending)) = .next (buildCommand c s) :=
  (linesDo_commandLines hc).run_placed (buildCommand_keeps_host c s)

/-- The lines of a packet's row, placed, come to building its command between its ends, and FRAME (log 1). -/
theorem run_packetLines {c : Command} (hc : c.wf = true) (d r : Byte) (s : State) :
    runSteps (packetLines d r (some c)).length (s.continueAt (packetLines d r (some c) ++ s.host.pending)) =
      .next (frameOp (buildCommand c (loadEnds d r s))) :=
  (linesDo_packetLines hc d r).run_placed ((frameOp_keeps_host _).trans (buildCommand_keeps_host c _))

/-- Settles O46: a row's lines stand before those still to run, and each run of them is put together from what its
lines do. -/
theorem wireRowsAreTheirHostLines : Obligations.WireRowsAreTheirHostLines := by
  refine ⟨fun s c hc => ⟨_, exec_command c s, rfl, run_commandLines hc s⟩, fun s d r c ls hc hls => ?_⟩
  subst hls
  exact ⟨_, exec_packet d r (some c) s, rfl, run_packetLines hc d r s⟩

/-! What the rows build (rules R110, R131 to R135). -/

/-- An ENC stores its command's bytes in CDATA and leaves every other byte. -/
theorem read_encoded_of_ne (c : Command) (s : State) {k : Nat}
    (hk : ∀ i, i < (encodeCommand c).length → k ≠ Buf.cdata.elemAddr i) :
    (encoded c s).mem.read k = s.mem.read k :=
  read_storeIn_of_ne .cdata (encodeCommand c) s k hk

/-- What the lines of a well-formed command leave in a state of canonical storage: its operands loaded, its bytes in
CDATA, and every byte outside its list and CDATA as before. -/
theorem commandRow_builds {c : Command} (hc : c.wf = true) {s : State} (hw : s.mem.wf = true) :
    ∃ t u, exec c.instr s = .next t ∧ t = s.continueAt (commandLines c ++ s.host.pending) ∧
      runSteps (commandLines c).length t = .next u ∧ u = encoded c (loadCommand c s) ∧
      encode c.instr = .wire u.command ∧ u.cdlen.toNat = (encodeCommand c).length ∧
      ∀ k, k ∉ operandCells c → (∀ i, i < (encodeCommand c).length → k ≠ Buf.cdata.elemAddr i) →
        u.mem.read k = s.mem.read k := by
  refine ⟨_, encoded c (loadCommand c s), exec_command c s, rfl, ?_, rfl, ?_, cdlen_encoded hc _,
    fun k hk hk' => ?_⟩
  · rw [← buildCommand_eq hc hw]
    exact run_commandLines hc s
  · rw [Command.encode_instr, command_encoded hc (wf_loadCommand hw c)]
  · rw [read_encoded_of_ne c _ hk', read_loadCommand_of_ne c s hk]

/-- A command without a list writes CDATA alone. -/
theorem sameBut_cdata {c : Command} {s u : State} {n : Nat} (hlist : operandCells c = [])
    (hn : (encodeCommand c).length = n)
    (hmem : ∀ k, k ∉ operandCells c → (∀ i, i < (encodeCommand c).length → k ≠ Buf.cdata.elemAddr i) →
      u.mem.read k = s.mem.read k) : SameBut .cdata n s u :=
  fun k hk => hmem k (hlist ▸ List.not_mem_nil) (hn ▸ hk)

/-- Settles O43: `commandRow_builds` for each of the three commands, whose operands are registers. -/
theorem fixedWireRowsBuildTheirBytes : Obligations.FixedWireRowsBuildTheirBytes := by
  intro s hw
  refine ⟨fun a n => ?_, fun a v => ?_, ?_⟩
  · obtain ⟨t, u, hx, ht, hrun, rfl, henc, -, hmem⟩ := commandRow_builds (c := .readBlock a n) rfl hw
    have hcount : (BitVec.ofNat 9 (n.toNat + 1)).toNat = n.toNat + 1 := by
      rw [BitVec.toNat_ofNat]
      omega
    exact ⟨t, _, hx, ht, hrun, henc, rfl, rfl, hcount, sameBut_cdata rfl rfl hmem, rfl⟩
  · obtain ⟨t, u, hx, ht, hrun, rfl, henc, -, hmem⟩ := commandRow_builds (c := .writeSingleAddress a v) rfl hw
    exact ⟨t, _, hx, ht, hrun, henc, rfl, rfl, rfl, sameBut_cdata rfl rfl hmem, rfl⟩
  · obtain ⟨t, u, hx, ht, hrun, rfl, henc, -, hmem⟩ := commandRow_builds (c := .initRequest) rfl hw
    exact ⟨t, _, hx, ht, hrun, henc, rfl, sameBut_cdata rfl rfl hmem, rfl⟩

/-- A loaded address list is the one ALIST and NADDR hold, and an ENC stores nothing there. -/
theorem addresses_encoded_load {as : List Address} (hc : (Command.readSingleAddresses as).wf = true) {s : State}
    (hw : s.mem.wf = true) :
    (encoded (.readSingleAddresses as) (loadReadSingleAddresses as s)).naddr.toNat = as.length ∧
    (encoded (.readSingleAddresses as) (loadReadSingleAddresses as s)).addresses = as := by
  have hle : 1 ≤ as.length ∧ as.length ≤ 84 := by simpa [Command.wf] using hc
  have hn : (BitVec.ofNat 7 as.length).toNat = as.length := by
    rw [BitVec.toNat_ofNat]
    omega
  refine ⟨hn, ?_⟩
  have hkept : (encoded (.readSingleAddresses as) (loadReadSingleAddresses as s)).addresses =
      (loadReadSingleAddresses as s).addresses := by
    refine Memory.loadAddresses_congr fun j _ hj => read_encoded_of_ne _ _ fun i _ => ?_
    simp only [encoded_naddr, loadReadSingleAddresses, hn] at hj
    simp only [Buf.elemAddr, Buf.base] at hj ⊢
    omega
  rw [hkept]
  exact Memory.loadAddresses_storeAddresses hw _ as hn

/-- A loaded value list is the one WVAL and NVAL hold, and an ENC stores nothing there. -/
theorem values_encoded_load {a : Address} {vs : List Byte} (hc : (Command.writeBlock a vs).wf = true) {s : State}
    (hw : s.mem.wf = true) :
    (encoded (.writeBlock a vs) (loadWriteBlock a vs s)).nval.toNat = vs.length ∧
    (encoded (.writeBlock a vs) (loadWriteBlock a vs s)).values = vs := by
  have hle : 1 ≤ vs.length ∧ vs.length ≤ 251 := by simpa [Command.wf] using hc
  have hn : (BitVec.ofNat 8 vs.length).toNat = vs.length := by
    rw [BitVec.toNat_ofNat]
    omega
  refine ⟨hn, ?_⟩
  have hkept : (encoded (.writeBlock a vs) (loadWriteBlock a vs s)).values = (loadWriteBlock a vs s).values :=
    load_storeIn_ne (b := .cdata) (b' := .wval) (by decide) _ (encodeCommand_bounds hc).2 (hn.trans_le hle.2)
  rw [hkept]
  exact Memory.load_store hw _ vs hn

/-- Settles O44: `commandRow_builds` for the two commands with a list, which stands in the elements that
`operandCells` names. -/
theorem listWireRowsBuildTheirBytes : Obligations.ListWireRowsBuildTheirBytes := by
  intro s hw
  refine ⟨fun as h1 h84 => ?_, fun a vs h1 h251 => ?_⟩
  · have hc : (Command.readSingleAddresses as).wf = true := decide_eq_true ⟨h1, h84⟩
    obtain ⟨t, u, hx, ht, hrun, rfl, henc, hcdlen, hmem⟩ := commandRow_builds hc hw
    rw [encodeCommand_length] at hcdlen hmem
    obtain ⟨hnaddr, haddrs⟩ := addresses_encoded_load hc hw
    refine ⟨t, _, hx, ht, hrun, henc, hcdlen, hnaddr, haddrs, fun k hk hk' => hmem k ?_ hk', rfl⟩
    simpa [operandCells] using hk
  · have hc : (Command.writeBlock a vs).wf = true := decide_eq_true ⟨h1, h251⟩
    obtain ⟨t, u, hx, ht, hrun, rfl, henc, hcdlen, hmem⟩ := commandRow_builds hc hw
    rw [encodeCommand_length] at hcdlen hmem
    obtain ⟨hnval, hvals⟩ := values_encoded_load hc hw
    refine ⟨t, _, hx, ht, hrun, henc, hcdlen, rfl, hnval, hvals, fun k hk hk' => hmem k ?_ hk', rfl⟩
    simpa [operandCells, eq_comm] using hk

/-- FRAME stores in TXBUF and leaves the command. -/
theorem command_framed (s : State) : (framed s).command = s.command :=
  load_storeIn_ne (b := .txbuf) (b' := .cdata) (by decide) s (packetOf_command_length_le s) (cdlen_le s)

theorem read_framed_of_ne (s : State) {k : Nat} (hk : ∀ i, i < s.cdlen.toNat + 5 → k ≠ Buf.txbuf.elemAddr i) :
    (framed s).mem.read k = s.mem.read k :=
  read_storeIn_of_ne .txbuf _ s k (by simpa using hk)

theorem loadCommand_loadEnds (c : Command) (d r : Byte) (s : State) :
    loadCommand c (loadEnds d r s) = loadEnds d r (loadCommand c s) := by
  cases c <;> rfl

/-- A packet row's command is encoded with something in it, so FRAME builds the packet. -/
theorem frameOp_buildCommand {c : Command} (hc : c.wf = true) {s : State} (hw : s.mem.wf = true) (d r : Byte) :
    frameOp (buildCommand c (loadEnds d r s)) = framed (encoded c (loadEnds d r (loadCommand c s))) := by
  have hbuild : buildCommand c (loadEnds d r s) = encoded c (loadEnds d r (loadCommand c s)) := by
    rw [buildCommand_eq hc (s := loadEnds d r s) hw, loadCommand_loadEnds]
  have hlen := cdlen_encoded hc (loadEnds d r (loadCommand c s))
  rw [hbuild]
  rcases frameOp_cases (encoded c (loadEnds d r (loadCommand c s))) with ⟨hz, -⟩ | ⟨-, h⟩
  · have := (encodeCommand_bounds hc).1
    rw [hz] at hlen
    simp at hlen
    omega
  · exact h

/-- Settles O45: the lines come to FRAME of the encoded command (or, without data, of no valid command); FRAME leaves
CDATA, and the two leave the loaded operands. -/
theorem packetRowBuildsItsBytes : Obligations.PacketRowBuildsItsBytes := by
  refine ⟨fun s d r c hw hc => ?_, fun s d r => ⟨_, rfl, rfl, (linesDo_packetLines_none d r).run_placed rfl⟩⟩
  have hframe := loadCommand_frame c s
  have hwf : (loadEnds d r (loadCommand c s)).mem.wf = true := wf_loadCommand hw c
  have hcmd := command_encoded hc hwf
  have hcdlen := cdlen_encoded hc (loadEnds d r (loadCommand c s))
  have hrun := run_packetLines hc d r s
  rw [frameOp_buildCommand hc hw] at hrun
  refine ⟨_, _, rfl, rfl, hrun, ?_, (command_framed _).trans hcmd, rfl, rfl, rfl, fun k hk hk' => ?_,
    fun k hk => read_loadCommand_of_ne c s hk, ?_⟩
  · rw [packet_framed (Memory.wf_store hwf _ _), hcmd]
    rfl
  · rw [read_framed_of_ne _ (hcdlen ▸ hk'), read_encoded_of_ne c _ hk]
    rfl
  · generalize loadCommand c s = q at hframe ⊢
    rw [hframe]
    rfl

/-! EXCHANGE (rule R95). -/

/-- ERR's code is 0 for OK alone (rule R210). -/
theorem code_eq_zero_iff (e : Err) : e.code = 0 ↔ e = .ok := by cases e <;> decide

/-- `if ERR` right after `rd STATUS` tests STATUS.ERR. -/
theorem seenErr_answerRead_status_eq_zero_iff (s : State) :
    (answerRead (.reg .status) s).seenErr = 0 ↔ s.err = .ok := by
  have hseen : (answerRead (.reg .status) s).seenErr = s.err.code := extractLsb'_statusWord_err s
  rw [hseen, code_eq_zero_iff]

/-- `rd STATUS` and `if ERR != 0: end` pass over the line after them where ERR is an error, and touch the host alone. -/
theorem run_rdStatus_ifErr (s : State) (l : Line) :
    ∃ h : HostAgent, h.pending = (if s.err = .ok then [l] else []) ∧
      runSteps 2 (s.continueAt [rdReg .status, .ifErr true (.skip 1), l]) = .next { s with host := h } := by
  have hread : step (s.continueAt [rdReg .status, .ifErr true (.skip 1), l]) =
      .next (answerRead (.reg .status) (s.continueAt [.ifErr true (.skip 1), l])) := step_rdReg (by decide) rfl
  have hseen := seenErr_answerRead_status_eq_zero_iff (s.continueAt [.ifErr true (.skip 1), l])
  rw [run_next hread]
  by_cases hok : s.err = .ok
  · have hpass := step_ifErr_of_not_test (a := .skip 1) (rest := [l]) rfl
      fun htest : _ = true => of_decide_eq_true htest (hseen.2 hok)
    exact ⟨_, (if_pos hok).symm, run_next hpass⟩
  · have htake := step_ifErr_of_test (a := .skip 1) (rest := [l]) rfl
      (decide_eq_true fun hzero => hok (hseen.1 hzero))
    exact ⟨_, (if_neg hok).symm, run_next htake⟩

/-- The first four steps of `EXCHANGE r` write REPLEN and run SEND, and pass over RECV where SEND raised an error. -/
theorem run_exchange_send (s : State) (r : Word) :
    ∃ h : HostAgent,
      h.pending = (if (sendOp { s with replen := r.setWidth 9 }).err = .ok then [opLine .recv] else []) ∧
      runSteps 4 (s.withProgram (exchange r)) = .next { sendOp { s with replen := r.setWidth 9 } with host := h } := by
  have hreplen : LinesDo [wrReg .replen r] fun s => { s with replen := r.setWidth 9 } := linesDo_wrReg rfl fun _ => rfl
  have hsend : LinesDo [opLine .send] sendOp := linesDo_opLine rfl sendOp_host fun _ => rfl
  have hfirst := (hreplen.append hsend) (s.withProgram (exchange r)) ((exchange r).drop 2)
  have hhost : sendOp { s.withProgram (exchange r) with replen := r.setWidth 9 } =
      { sendOp { s with replen := r.setWidth 9 } with host := (s.withProgram (exchange r)).host } :=
    sendOp_host { s with replen := r.setWidth 9 } _
  obtain ⟨h, hpend, hrun⟩ := run_rdStatus_ifErr (sendOp { s.withProgram (exchange r) with replen := r.setWidth 9 })
    (opLine .recv)
  rw [hhost] at hpend hrun
  refine ⟨h, hpend, (run_add 2 2 hfirst).trans ?_⟩
  rw [Function.comp_apply, hhost]
  exact hrun

/-- Settles O47: `run_exchange_send`, and where it leaves the RECV to run, that line's step. -/
theorem exchangeLinesRunSendThenRecv : Obligations.ExchangeLinesRunSendThenRecv := by
  intro s r
  obtain ⟨h, hpend, hrun⟩ := run_exchange_send s r
  refine ⟨sendOp { s with replen := r.setWidth 9 }, rfl, ?_⟩
  generalize sendOp { s with replen := r.setWidth 9 } = t at hpend hrun ⊢
  refine ⟨fun herr => ⟨_, hrun, hpend.trans (if_neg herr), rfl⟩, fun hok => ?_⟩
  rw [if_pos hok] at hpend
  have hrecv : exec .recv (State.continueAt { t with host := h } []) =
      .next { recvOp t with host := { h with pending := [] } } :=
    congrArg Host.Outcome.next (recvOp_host t _)
  exact ⟨recvOp t, _, rfl, (run_add 4 1 hrun).trans (run_opLine (i := .recv) rfl hpend hrecv), rfl, rfl⟩

end Sys2Proof.Machine
end

section
/-! The checksum and FRAME (rules R110 to R116, R136, R180, R249): what changing a byte does to the sum, what the
check sees of it, the packet that FRAME leaves, and what follows an ENC that fails. -/

namespace Sys2Proof.Machine

/-! The sum and the check (rules R112, R113). -/

/-- Settles O21, by induction on the bytes. -/
theorem sum8IsTheSumModulo256 : Obligations.Sum8IsTheSumModulo256 := by
  intro bs
  induction bs with
  | nil => rfl
  | cons b bs ih => rw [sum8, BitVec.toNat_add, ih, List.map_cons, List.sum_cons, Nat.add_mod_mod]

/-- The check on a frame with a final byte, as a proposition. -/
theorem csumOk_concat_iff {p : List Byte} {c : Byte} : csumOk (p ++ [c]) = true ↔ sum8 p = c := by
  rw [csumOk_concat, beq_iff_eq]

/-- Settles O22: one byte is the final byte after no byte, and the sum of none is 0. -/
theorem checksumPredicate : Obligations.ChecksumPredicate :=
  ⟨csumOk_nil, fun _ _ => csumOk_concat_iff, fun _ => (csumOk_concat_iff (p := [])).trans eq_comm⟩

/-- Changing one byte moves the sum by what the byte moves. -/
theorem sum8_set (bs : List Byte) {i : Nat} (v : Byte) (hi : i < bs.length) :
    sum8 (bs.set i v) = sum8 bs + (v - bs[i]) := by
  induction bs generalizing i with
  | nil => cases hi
  | cons b bs ih =>
    cases i with
    | zero =>
      simp only [List.set_cons_zero, List.getElem_cons_zero, sum8]
      ring
    | succ i =>
      simp only [List.set_cons_succ, List.getElem_cons_succ, sum8, ih (Nat.lt_of_succ_lt_succ hi), BitVec.add_assoc]

/-- A frame that has a byte at `i` ends in a byte. -/
theorem eq_concat_of_lt {f : List Byte} {i : Nat} (hi : i < f.length) : ∃ p c, f = p ++ [c] :=
  eq_dropLast_concat (List.ne_nil_of_length_pos (Nat.zero_lt_of_lt hi))

/-- Settles O23: a changed byte before the final one moves the sum away from it, and a changed final byte
leaves the sum. -/
theorem singleByteCorruptionIsDetected : Obligations.SingleByteCorruptionIsDetected := by
  intro f i v hi hok hv
  obtain ⟨p, c, rfl⟩ := eq_concat_of_lt hi
  have hsum : sum8 p = c := csumOk_concat_iff.1 hok
  rw [← Bool.not_eq_true]
  by_cases hp : i < p.length
  · rw [List.getElem_append_left hp] at hv
    rw [List.set_append_left i v hp, csumOk_concat_iff, sum8_set p v hp, hsum, add_eq_left, sub_eq_zero]
    exact hv
  · obtain rfl : i = p.length := by
      rw [List.length_append, List.length_singleton] at hi
      omega
    rw [List.getElem_concat_length rfl] at hv
    rw [List.set_append_right _ v (Nat.le_refl _), Nat.sub_self, List.set_cons_zero, csumOk_concat_iff, hsum]
    exact hv.symm

/-- Settles O24: the two moves of the sum cancel, or its one move is that of the final byte. -/
theorem cancellingCorruptionIsNotDetected : Obligations.CancellingCorruptionIsNotDetected := by
  refine ⟨fun f i j d hij hi hj hok => ?_, fun p q c d hok hq => ?_⟩
  · obtain ⟨p, c, rfl⟩ := eq_concat_of_lt (Nat.lt_of_succ_lt hi)
    simp only [List.length_append, List.length_singleton, Nat.add_lt_add_iff_right] at hi hj
    have hj' : j < (p.set i (p[i] + d)).length := hj.trans_eq List.length_set.symm
    rw [List.getElem_append_left hi, List.getElem_append_left hj, List.set_append_left i _ hi,
      List.set_append_left j _ hj', csumOk_concat_iff, sum8_set _ _ hj', sum8_set _ _ hi,
      List.getElem_set_ne hij, csumOk_concat_iff.1 hok]
    ring
  · rw [csumOk_concat_iff, hq, csumOk_concat_iff.1 hok]

/-! FRAME (rules R110, R111, R114). -/

theorem exec_frame_of_command {s : State} (h : s.cdlen ≠ 0) : exec .frame s = .next (framed s) :=
  congrArg Host.Outcome.next (if_neg h)

theorem exec_frame_of_no_command {s : State} (h : s.cdlen = 0) : exec .frame s = .next (notFramed s) :=
  congrArg Host.Outcome.next (if_pos h)

/-- A FRAME without an error had a command. -/
theorem eq_framed_of_ok {s t : State} (hx : exec .frame s = .next t) (hok : t.err = .ok) : t = framed s := by
  by_cases h : s.cdlen = 0
  · cases (exec_frame_of_no_command h).symm.trans hx
    cases hok
  · exact Host.Outcome.next.inj (hx.symm.trans (exec_frame_of_command h))

/-- The dataLength of a packet around the command data is CDLEN. -/
theorem ofNat_command_length (s : State) : BitVec.ofNat 8 s.command.length = s.cdlen := by
  rw [command_length, BitVec.ofNat_toNat, BitVec.setWidth_eq]

/-- The packet around the command data, written out (rule R84). -/
theorem packetOf_command (s : State) :
    packetOf s.dst s.src s.command = ([0x80, s.dst, s.src, s.cdlen] ++ s.command) ++
      [sum8 ([0x80, s.dst, s.src, s.cdlen] ++ s.command)] := by
  rw [packetOf, ofNat_command_length]

/-- Settles O25: FRAME's two cases, and what `framed` leaves of the storage. -/
theorem frameBuildsThePacket : Obligations.FrameBuildsThePacket :=
  ⟨fun s hw hc => ⟨framed s, exec_frame_of_command hc, (packet_framed hw).trans (packetOf_command s), txlen_framed s,
      fun _ hk => read_framed_of_ne s hk, rfl⟩,
    fun _ hc => exec_frame_of_no_command hc⟩

/-- TXBUF[3] of a framed packet is its dataLength. -/
theorem read_dataLength_framed {s : State} (hw : s.mem.wf = true) :
    (framed s).mem.read (Buf.txbuf.elemAddr 3) = s.cdlen :=
  (Memory.read_store hw _ (packetOf s.dst s.src s.command) 3 (by rw [packetOf_length]; omega)).trans
    (ofNat_command_length s)

/-- A sequence of elements is all but its last one, and that one. -/
theorem Memory.load_succ (m : Memory) (k n : Nat) : m.load k (n + 1) = m.load k n ++ [m.read (k + 4 * n)] := by
  induction n generalizing k with
  | zero => rfl
  | succ n ih => rw [Memory.load, ih, Memory.load, List.cons_append, Nat.mul_succ, Nat.add_right_comm, Nat.add_assoc]

/-- A packet in TXBUF that passes the check has the sum of its other bytes in its last element (rule R113). -/
theorem read_last_eq_sum8 {s : State} (htx : s.txlen ≠ 0) (h : csumOk s.packet = true) :
    s.mem.read (Buf.txbuf.elemAddr (s.txlen.toNat - 1)) = sum8 (s.mem.load Buf.txbuf.base (s.txlen.toNat - 1)) := by
  rw [State.packet, ← Nat.sub_add_cancel (BitVec_pos_of_ne htx), Memory.load_succ, csumOk_concat_iff] at h
  exact h.symm

/-- Settles O26: the packet is `packetOf` of the command data, so it passes, and the rest follows from its shape. -/
theorem framedPacketPassesTheCheck : Obligations.FramedPacketPassesTheCheck := by
  intro s t hw hx hok
  obtain rfl := eq_framed_of_ok hx hok
  have hlen : (framed s).txlen.toNat = s.cdlen.toNat + 5 := txlen_framed s
  have hpass : csumOk (framed s).packet = true := by
    rw [packet_framed hw]
    exact csumOk_packetOf _ _ _
  have htx : (framed s).txlen ≠ 0 := fun h0 => by
    rw [h0] at hlen
    cases hlen
  refine ⟨?_, ?_, read_last_eq_sum8 htx hpass, hpass⟩
  · rw [read_dataLength_framed hw, hlen, Nat.add_sub_cancel]
  · rw [command_length, hlen, Nat.add_sub_cancel]

/-! After a failed ENC (rules R111, R136, R180, R249). -/

/-- Each ENC operation is `encOp` of a command of its kind, whatever operands that command has. -/
theorem eq_encOp_of_exec {i : Instr} (hi : i ∈ encOps) {s t : State} (hx : exec i s = .next t) :
    ∃ c, t = encOp c s := by
  simp only [encOps, List.mem_cons, List.not_mem_nil, or_false] at hi
  rcases hi with rfl | rfl | rfl | rfl | rfl <;> cases hx
  · exact ⟨.readBlock 0 0, rfl⟩
  · exact ⟨.readSingleAddresses [], rfl⟩
  · exact ⟨.writeBlock 0 [], rfl⟩
  · exact ⟨.writeSingleAddress 0 0, rfl⟩
  · exact ⟨.initRequest, rfl⟩

/-- An ENC with an error is one that encoded nothing. -/
theorem eq_notEncoded_of_failed {i : Instr} (hi : i ∈ encOps) {s t : State} (hx : exec i s = .next t)
    (herr : t.err ≠ .ok) : t = notEncoded s := by
  obtain ⟨c, rfl⟩ := eq_encOp_of_exec hi hx
  rcases encOp_cases c s with h | ⟨c', -, h⟩
  · exact h
  · exact absurd (congrArg State.err h) herr

/-- A SEND with no packet puts nothing on the wire, and its error says if an echo was pending (rule R180). -/
theorem sendOp_of_no_packet {s : State} (htx : s.txlen = 0) :
    (sendOp s).txlog = s.txlog ∧ (s.echolen = 0 → (sendOp s).err = .invalidArgument) ∧
    (s.echolen ≠ 0 → (sendOp s).err = .sequenceError) := by
  rcases sendOp_cases s with ⟨he, h⟩ | ⟨he, -, h⟩ | ⟨-, hne, -⟩ | ⟨-, hne, -⟩
  · rw [h]
    exact ⟨rfl, fun h0 => absurd h0 he, fun _ => rfl⟩
  · rw [h]
    exact ⟨rfl, fun _ => rfl, fun h0 => absurd he h0⟩
  · exact absurd htx hne
  · exact absurd htx hne

/-- Settles O32: the failed ENC leaves no command, so FRAME leaves no packet, so SEND sends none. -/
theorem failedEncStopsTheChain : Obligations.FailedEncStopsTheChain := by
  intro i s s1 hi hx herr
  obtain rfl := eq_notEncoded_of_failed hi hx herr
  exact ⟨rfl, rfl, rfl, notFramed (notEncoded s), sendOp (notFramed (notEncoded s)), exec_frame_of_no_command rfl,
    rfl, rfl, rfl, sendOp_of_no_packet (s := notFramed (notEncoded s)) rfl⟩

end Sys2Proof.Machine
end

section
/-! The ENC operations (rules R131 to R137): the bytes each leaves, what it leaves alone, and the operands it reads. -/

namespace Sys2Proof.Machine

/-! The operands an ENC takes. -/

/-- An operand passes the test of an ENC exactly when it is within its limits. -/
theorem not_zero_or_lt_iff {n : Nat} {x : BitVec n} {k : Nat} :
    ¬ (x = 0 ∨ k < x.toNat) ↔ 1 ≤ x.toNat ∧ x.toNat ≤ k := by
  rw [not_or, Nat.not_lt]
  refine and_congr_left' ⟨BitVec_pos_of_ne, fun hpos hz => ?_⟩
  rw [hz] at hpos
  exact absurd hpos (by simp)

/-- The address list that ENC.RDADDR takes is one of ReadSingleAddresses (rules R35, R86). -/
theorem wf_readSingleAddresses_addresses {s : State} (h : 1 ≤ s.naddr.toNat ∧ s.naddr.toNat ≤ 84) :
    (Command.readSingleAddresses s.addresses).wf = true :=
  decide_eq_true ((addresses_length s).symm ▸ h)

/-- The value list that ENC.WRBLK takes is one of WriteBlock (rules R35, R86). -/
theorem wf_writeBlock_values {s : State} (h : 1 ≤ s.nval.toNat ∧ s.nval.toNat ≤ 251) :
    (Command.writeBlock s.addr s.values).wf = true :=
  decide_eq_true ((values_length s).symm ▸ h)

/-! What each ENC leaves (rules R131 to R136). -/

/-- An ENC that succeeds writes the elements of CDATA that its command's bytes fill, and no other byte. -/
theorem sameBut_encoded (c : Command) (s : State) : SameBut .cdata (encodeCommand c).length s (encoded c s) :=
  fun _ hk => read_encoded_of_ne c s hk

/-- Settles O27: the limits of COUNT are ENC.RDBLK's own test. -/
theorem encRdblkEncodesReadBlock : Obligations.EncRdblkEncodesReadBlock :=
  ⟨fun s hw h1 h256 => ⟨encoded (.readBlock s.addr (BitVec.ofNat 8 (s.count.toNat - 1))) s,
      congrArg Host.Outcome.next (if_neg (not_zero_or_lt_iff.2 ⟨h1, h256⟩)),
      command_encoded rfl hw, rfl, sameBut_encoded (.readBlock _ _) s, rfl⟩,
    fun _ h => congrArg Host.Outcome.next (if_pos h)⟩

/-- Settles O28: an address list within NADDR's limits has three bytes in CDATA for each of its elements. -/
theorem encRdaddrEncodesReadSingleAddresses : Obligations.EncRdaddrEncodesReadSingleAddresses := by
  refine ⟨fun s hw h1 h84 => ?_, fun _ h => congrArg Host.Outcome.next (if_pos h)⟩
  have hc := wf_readSingleAddresses_addresses ⟨h1, h84⟩
  have hlen : (encodeCommand (.readSingleAddresses s.addresses)).length = 2 + 3 * s.naddr.toNat :=
    (encodeCommand_length _).trans (congrArg (2 + 3 * ·) (addresses_length s))
  exact ⟨encoded (.readSingleAddresses s.addresses) s,
    congrArg Host.Outcome.next (if_neg (not_zero_or_lt_iff.2 ⟨h1, h84⟩)),
    command_encoded hc hw, (cdlen_encoded hc s).trans hlen, hlen ▸ sameBut_encoded _ s, rfl⟩

/-- Settles O29: a value list within NVAL's limits has one byte in CDATA for each of its elements. -/
theorem encWrblkEncodesWriteBlock : Obligations.EncWrblkEncodesWriteBlock := by
  refine ⟨fun s hw h1 h251 => ?_, fun _ h => congrArg Host.Outcome.next (if_pos h)⟩
  have hc := wf_writeBlock_values ⟨h1, h251⟩
  have hlen : (encodeCommand (.writeBlock s.addr s.values)).length = 4 + s.nval.toNat :=
    (encodeCommand_length _).trans (congrArg (4 + ·) (values_length s))
  exact ⟨encoded (.writeBlock s.addr s.values) s,
    congrArg Host.Outcome.next (if_neg (not_zero_or_lt_iff.2 ⟨h1, h251⟩)),
    command_encoded hc hw, (cdlen_encoded hc s).trans hlen, hlen ▸ sameBut_encoded _ s, rfl⟩

/-- Settles O30: the two operations test no operand. -/
theorem encWraddrAndInitEncode : Obligations.EncWraddrAndInitEncode := fun s hw =>
  ⟨⟨encoded (.writeSingleAddress s.addr s.value) s, rfl, command_encoded rfl hw, rfl,
      sameBut_encoded (.writeSingleAddress _ _) s, rfl⟩,
    ⟨encoded .initRequest s, rfl, command_encoded rfl hw, rfl, sameBut_encoded .initRequest s, rfl⟩⟩

/-! What each ENC reads (rule R137). -/

section
variable {i : Instr} {c : Command} {s s' : State}

/-- Encoding one command in two states leaves the same command data, CDLEN and ERR. -/
theorem sameEncoding_of_encoded (hw : s.mem.wf = true) (hw' : s'.mem.wf = true) (hc : c.wf = true)
    (hx : exec i s = .next (encoded c s)) (hx' : exec i s' = .next (encoded c s')) : SameEncoding i s s' :=
  ⟨_, _, hx, hx', (command_encoded hc hw).trans (command_encoded hc hw').symm, rfl, rfl⟩

/-- An ENC that raises leaves no command data, whatever CDATA holds. -/
theorem sameEncoding_of_notEncoded (hx : exec i s = .next (notEncoded s)) (hx' : exec i s' = .next (notEncoded s')) :
    SameEncoding i s s' :=
  ⟨_, _, hx, hx', rfl, rfl, rfl⟩

/-- An ENC that makes the same test in two states, and encodes the same command where it does not raise, leaves the
same in both. -/
theorem sameEncoding_of_ite {p : Prop} [Decidable p] (hw : s.mem.wf = true) (hw' : s'.mem.wf = true)
    (hc : ¬ p → c.wf = true) (hx : exec i s = .next (if p then notEncoded s else encoded c s))
    (hx' : exec i s' = .next (if p then notEncoded s' else encoded c s')) : SameEncoding i s s' := by
  by_cases h : p
  · rw [if_pos h] at hx hx'
    exact sameEncoding_of_notEncoded hx hx'
  · rw [if_neg h] at hx hx'
    exact sameEncoding_of_encoded hw hw' (hc h) hx hx'

end

/-- Settles O31: each operation's test and command are made from its operands, so they are the same in two states
that agree on these. -/
theorem encReadsOnlyItsOperands : Obligations.EncReadsOnlyItsOperands := by
  intro s s' hw hw'
  refine ⟨fun haddr hcount => sameEncoding_of_ite hw hw' (fun _ => rfl) rfl ?_,
    fun hnaddr hlist => sameEncoding_of_ite hw hw'
      (fun h => wf_readSingleAddresses_addresses (not_zero_or_lt_iff.1 h)) rfl ?_,
    fun haddr hnval hvals => sameEncoding_of_ite hw hw'
      (fun h => wf_writeBlock_values (not_zero_or_lt_iff.1 h)) rfl ?_,
    fun haddr hvalue => sameEncoding_of_encoded (c := .writeSingleAddress s.addr s.value) hw hw' rfl rfl ?_,
    sameEncoding_of_encoded (c := .initRequest) hw hw' rfl rfl rfl⟩
  · rw [haddr, hcount]
    rfl
  · rw [hnaddr, hlist]
    rfl
  · rw [haddr, hnval, hvals]
    rfl
  · rw [haddr, hvalue]
    rfl

end Sys2Proof.Machine
end

section
/-! PARSE and the two VERIFY operations (rules R160, R161, R165 to R167): what a parsed reply is, and when the check
on a buffer passes. -/

namespace Sys2Proof.Machine

/-! A reply that is delivered (rules R34, R160). -/

theorem rplen_replied {bs : List Byte} (hbs : bs.length ≤ Config.maxRx) (s : State) :
    (replied bs s).rplen.toNat = bs.length := by
  simp only [replied_rplen, BitVec.toNat_ofNat, Config.maxRx] at hbs ⊢
  omega

/-- The bytes a PARSE or RECV delivers are the reply it leaves. -/
theorem replyBytes_replied {bs : List Byte} (hbs : bs.length ≤ Config.maxRx) {s : State} (hw : s.mem.wf = true) :
    (replied bs s).replyBytes = bs :=
  load_storeIn (b := .reply) s hw (rplen_replied hbs s)

theorem sameBut_replied (bs : List Byte) (s : State) : SameBut .reply bs.length s (replied bs s) :=
  read_storeIn_of_ne .reply bs s

/-! PARSE (rules R160, R161). -/

theorem exec_parse_of_rxcount_gt {s : State} (h : 520 < s.rxcount.toNat) :
    exec .parse s = .next (noReply .invalidArgument s) :=
  congrArg Host.Outcome.next (if_pos h)

theorem exec_parse_of_lt_reqlen {s : State} (h520 : s.rxcount.toNat ≤ 520) (h : s.rxcount.toNat < s.reqlen.toNat) :
    exec .parse s = .next (noReply .truncatedFrame s) :=
  congrArg Host.Outcome.next ((if_neg (Nat.not_lt.2 h520)).trans (if_pos h))

theorem exec_parse_of_reqlen_le {s : State} (h520 : s.rxcount.toNat ≤ 520) (h : s.reqlen.toNat ≤ s.rxcount.toNat) :
    exec .parse s = .next (replied (s.raw.drop s.reqlen.toNat) s) :=
  congrArg Host.Outcome.next ((if_neg (Nat.not_lt.2 h520)).trans (if_neg (Nat.not_lt.2 h)))

/-- What is left of the raw response once the echo is stripped. -/
theorem length_raw_drop_reqlen (s : State) :
    (s.raw.drop s.reqlen.toNat).length = s.rxcount.toNat - s.reqlen.toNat := by
  rw [List.length_drop, raw_length]

/-- Settles O33: PARSE's three cases; in the last one the bytes after the echo fit in REPLY, so the reply is those. -/
theorem parseStripsTheEcho : Obligations.ParseStripsTheEcho := by
  refine ⟨fun s hw h520 hle => ?_, fun s h => exec_parse_of_rxcount_gt h,
    fun s h520 hlt => exec_parse_of_lt_reqlen h520 hlt⟩
  have hlen := length_raw_drop_reqlen s
  have hfit : (s.raw.drop s.reqlen.toNat).length ≤ Config.maxRx := hlen ▸ (Nat.sub_le _ _).trans h520
  exact ⟨replied (s.raw.drop s.reqlen.toNat) s, exec_parse_of_reqlen_le h520 hle, replyBytes_replied hfit hw,
    (rplen_replied hfit s).trans hlen, hlen ▸ sameBut_replied _ s, replied_frame _ s⟩

/-- Settles O34: the echo PARSE strips is the whole packet, which TXLEN bytes make. -/
theorem parseRoundTrip : Obligations.ParseRoundTrip := by
  intro s y hw h520 hrx hreq hraw
  obtain ⟨t, hx, hreply, hrplen, -, ht⟩ := parseStripsTheEcho.1 s hw (by omega) (by omega)
  refine ⟨t, hx, ?_, by omega, congrArg State.err ht⟩
  rw [hreply, hraw, hreq, ← packet_length, List.drop_left]

/-! VERIFY (rules R165 to R167). -/

theorem verifyOp_of_pass {f : List Byte} (h : csumOk f = true) (s : State) :
    verifyOp f s = { s with csumOk := true, err := .ok } := if_pos h

theorem verifyOp_of_fail {f : List Byte} (h : csumOk f = false) (s : State) :
    verifyOp f s = { s with csumOk := false, err := .checksumMismatch } := if_neg (by simp [h])

/-- A frame without a byte has no final byte to check (rule R113). -/
theorem csumOk_of_length_eq_zero {f : List Byte} (h : f.length = 0) : csumOk f = false := by
  rw [List.length_eq_zero_iff.1 h, csumOk_nil]

theorem csumOk_replyBytes_of_rplen_eq_zero {s : State} (h : s.rplen = 0) : csumOk s.replyBytes = false :=
  csumOk_of_length_eq_zero (by simp [h])

theorem csumOk_packet_of_txlen_eq_zero {s : State} (h : s.txlen = 0) : csumOk s.packet = false :=
  csumOk_of_length_eq_zero (by simp [h])

/-- Settles O35: both operations are `verifyOp`, of the reply and of the packet. -/
theorem verifyReportsTheCheck : Obligations.VerifyReportsTheCheck := fun s =>
  ⟨fun h => congrArg Host.Outcome.next (verifyOp_of_pass h s),
    fun h => congrArg Host.Outcome.next (verifyOp_of_fail h s),
    csumOk_replyBytes_of_rplen_eq_zero,
    fun h => congrArg Host.Outcome.next (verifyOp_of_pass h s),
    fun h => congrArg Host.Outcome.next (verifyOp_of_fail h s),
    csumOk_packet_of_txlen_eq_zero⟩

/-- A packet of one of the five commands passes the check (rule R114). -/
theorem IsCommandPacket.csumOk {f : List Byte} (h : IsCommandPacket f) : csumOk f = true := by
  obtain ⟨d, r, c, -, rfl⟩ := h
  exact csumOk_packetOf d r (encodeCommand c)

/-- Settles O36: by the invariant TXBUF holds a packet wherever TXLEN is not 0, and a packet passes. -/
theorem verifyTxPassesExactlyOnAPacket : Obligations.VerifyTxPassesExactlyOnAPacket := by
  intro s hinv
  obtain ⟨-, -, -, hpass, hfail, hnone⟩ := verifyReportsTheCheck s
  by_cases htx : s.txlen = 0
  · exact ⟨_, hfail (hnone htx), iff_of_false nofun (not_not.2 htx), iff_of_false nofun (not_not.2 htx), fun _ => rfl⟩
  · exact ⟨_, hpass (hinv.packet htx).csumOk, iff_of_true rfl htx, iff_of_true rfl htx, fun h => absurd h htx⟩

end Sys2Proof.Machine
end

section
/-! The link (rules R180 to R189): what SEND leaves for each answer of the transport, what RECV leaves for each number
of bytes that came, and the two in turn. -/

namespace Sys2Proof.Machine

/-! SEND (rules R180, R182, R244). -/

/-- What a SEND that the transport takes leaves (rule R180). -/
def sent (s : State) : State :=
  { s with txlog := s.txlog ++ s.packet, echolen := s.txlen, err := .ok, env := s.env.afterWrite }

theorem sendOp_of_taken {s : State} (he : s.echolen = 0) (htx : s.txlen ≠ 0) (ha : nextWrite s.packet s = .ok) :
    sendOp s = sent s := by
  rw [sendOp, if_neg (not_not.2 he), if_neg htx, afterWrite, ha]
  rfl

theorem sendOp_of_failed {s : State} {n : Nat} (he : s.echolen = 0) (htx : s.txlen ≠ 0)
    (ha : nextWrite s.packet s = .ioError n) :
    sendOp s = { s with txlog := s.txlog ++ s.packet.take n, echolen := 0, err := .transportError,
                        env := s.env.afterWrite } := by
  rw [sendOp, if_neg (not_not.2 he), if_neg htx, afterWrite, ha]
  rfl

theorem sendOp_of_pending {s : State} (he : s.echolen ≠ 0) : sendOp s = { s with err := .sequenceError } := if_pos he

theorem sendOp_of_idle {s : State} (he : s.echolen = 0) (htx : s.txlen = 0) :
    sendOp s = { s with err := .invalidArgument } := (if_neg (not_not.2 he)).trans (if_pos htx)

/-- Of SEND's four outcomes one is a success. -/
theorem sendOp_of_ok {s : State} (hok : (sendOp s).err = .ok) : sendOp s = sent s := by
  rcases sendOp_cases s with ⟨-, h⟩ | ⟨-, -, h⟩ | ⟨he, htx, ha, -⟩ | ⟨-, -, n, -, h⟩
  · rw [h] at hok
    cases hok
  · rw [h] at hok
    cases hok
  · exact sendOp_of_taken he htx ha
  · rw [h] at hok
    cases hok

/-- A scripted write answer. -/
theorem nextWrite_script {s : State} {a : WriteAnswer} {rest : List WriteAnswer} (h : s.env.writes = a :: rest)
    (bs : List Byte) : nextWrite bs s = a := by
  rw [nextWrite, h]

/-- A write takes no read answer. -/
theorem reads_afterWrite (e : Env) : e.afterWrite.reads = e.reads := by
  unfold Env.afterWrite
  split <;> rfl

/-- Settles O37: SEND's four outcomes; LINK is 1 in the first because ECHOLEN is TXLEN, which is not 0. -/
theorem sendTransmitsThePacket : Obligations.SendTransmitsThePacket :=
  ⟨fun s he htx ha => ⟨sent s, congrArg Host.Outcome.next (sendOp_of_taken he htx ha), rfl, rfl,
      (link_iff (sent s)).2 htx, rfl⟩,
    fun _ _ he htx ha => ⟨_, congrArg Host.Outcome.next (sendOp_of_failed he htx ha), rfl, rfl⟩,
    fun _ he => congrArg Host.Outcome.next (sendOp_of_pending he),
    fun _ he htx => congrArg Host.Outcome.next (sendOp_of_idle he htx)⟩

/-! What a RECV does with the bytes that came (rule R183). -/

section
variable {e n : Nat} {b : List Byte} {s : State}

theorem recvBytes_of_none (h : b.length = 0) :
    recvBytes e n b s = noReply .noResponse { s with csumOk := false } := if_pos h

theorem recvBytes_of_short (h0 : 0 < b.length) (h : b.length < e + n) :
    recvBytes e n b s = noReply .truncatedFrame { s with csumOk := false } :=
  (if_neg h0.ne').trans (if_pos h)

theorem recvBytes_of_bad (h0 : 0 < b.length) (h : e + n ≤ b.length) (hc : csumOk (b.drop e) = false) :
    recvBytes e n b s = noReply .checksumMismatch { s with csumOk := false } := by
  rw [recvBytes, if_neg h0.ne', if_neg h.not_gt, hc, if_neg Bool.false_ne_true]

theorem recvBytes_of_good (h0 : 0 < b.length) (h : e + n ≤ b.length) (hc : csumOk (b.drop e) = true) :
    recvBytes e n b s = replied (b.drop e) { s with csumOk := true } := by
  rw [recvBytes, if_neg h0.ne', if_neg h.not_gt, if_pos hc]

/-- The memory is written on success only, and then by the reply alone. -/
theorem recvBytes_mem (e n : Nat) (b : List Byte) (s : State) :
    (recvBytes e n b s).mem = s.mem ∨
    (recvBytes e n b s).err = .ok ∧ (recvBytes e n b s).mem = (storeIn .reply (b.drop e) s).mem := by
  rcases recvBytes_cases e n b s with ⟨-, h⟩ | ⟨-, -, h⟩ | ⟨-, -, -, h⟩ | ⟨-, -, -, h⟩ <;> rw [h]
  · exact .inl rfl
  · exact .inl rfl
  · exact .inl rfl
  · exact .inr ⟨rfl, rfl⟩

/-- Only an answer of all the bytes asked for is a success. -/
theorem le_length_of_recvBytes_ok (hok : (recvBytes e n b s).err = .ok) : e + n ≤ b.length := by
  rcases recvBytes_cases e n b s with ⟨-, h⟩ | ⟨-, -, h⟩ | ⟨-, hlen, -⟩ | ⟨-, hlen, -⟩
  · rw [h] at hok
    cases hok
  · rw [h] at hok
    cases hok
  · exact hlen
  · exact hlen

theorem recvBytes_rxcount (e n : Nat) (b : List Byte) (s : State) : (recvBytes e n b s).rxcount = s.rxcount := by
  rcases recvBytes_cases e n b s with ⟨-, h⟩ | ⟨-, -, h⟩ | ⟨-, -, -, h⟩ | ⟨-, -, -, h⟩ <;> rw [h] <;> rfl

theorem recvBytes_env (e n : Nat) (b : List Byte) (s : State) : (recvBytes e n b s).env = s.env := by
  rcases recvBytes_cases e n b s with ⟨-, h⟩ | ⟨-, -, h⟩ | ⟨-, -, -, h⟩ | ⟨-, -, -, h⟩ <;> rw [h] <;> rfl

/-- Storing the reply leaves the raw response: the 1023 elements that RXCOUNT can count end before REPLY. -/
theorem recvBytes_raw (e n : Nat) (b : List Byte) (s : State) : (recvBytes e n b s).raw = s.raw := by
  rw [State.raw, State.raw, recvBytes_rxcount]
  rcases recvBytes_mem e n b s with h | ⟨-, h⟩
  · rw [h]
  · rw [h]
    refine Memory.load_store_of_ne _ _ _ _ _ fun i j _ hj => ?_
    have hlt := s.rxcount.isLt
    simp only [Buf.base]
    omega

theorem recvBytes_wf (e n : Nat) (b : List Byte) (h : s.mem.wf = true) : (recvBytes e n b s).mem.wf = true := by
  rcases recvBytes_mem e n b s with hm | ⟨-, hm⟩ <;> rw [hm]
  · exact h
  · exact Memory.wf_store h _ _

end

/-! A RECV that asks the transport (rules R181, R183). -/

theorem ne_zero_of_toNat_pos {n : Nat} {x : BitVec n} (h : 1 ≤ x.toNat) : x ≠ 0 := by
  rintro rfl
  simp at h

theorem recvOp_replen (s : State) : (recvOp s).replen = s.replen := by rw [recvOp_frame rfl]

theorem recvOp_txlen (s : State) : (recvOp s).txlen = s.txlen := by rw [recvOp_frame rfl]

section
variable {s : State} (h1 : 1 ≤ s.replen.toNat) (h260 : s.replen.toNat ≤ 260)
include h1 h260

theorem recvOp_of_asked : recvOp s = recvResult s.echolen.toNat s.replen.toNat
    (nextRead (s.echolen.toNat + s.replen.toNat) s) (asked s) := by
  have h0 : s.replen ≠ 0 := ne_zero_of_toNat_pos h1
  exact if_neg fun h => h.elim h0 h260.not_gt

theorem recvOp_of_ioError (ha : nextRead (s.echolen.toNat + s.replen.toNat) s = .ioError) :
    recvOp s = noReply .transportError { asked s with rxcount := 0, csumOk := false } := by
  rw [recvOp_of_asked h1 h260, ha]
  rfl

theorem recvOp_of_bytes {b : List Byte} (ha : nextRead (s.echolen.toNat + s.replen.toNat) s = .bytes b) :
    recvOp s = recvBytes s.echolen.toNat s.replen.toNat b (received b (asked s)) := by
  rw [recvOp_of_asked h1 h260, ha]
  rfl

theorem recvOp_echolen : (recvOp s).echolen = 0 := recvOp_echolen_of_asked (ne_zero_of_toNat_pos h1) h260

theorem recvOp_env : (recvOp s).env = s.env.afterRead := by
  cases ha : nextRead (s.echolen.toNat + s.replen.toNat) s with
  | ioError => rw [recvOp_of_ioError h1 h260 ha]; rfl
  | bytes b => rw [recvOp_of_bytes h1 h260 ha, recvBytes_env]; rfl

theorem recvOp_wf (hw : s.mem.wf = true) : (recvOp s).mem.wf = true := by
  cases ha : nextRead (s.echolen.toNat + s.replen.toNat) s with
  | ioError => rw [recvOp_of_ioError h1 h260 ha]; exact hw
  | bytes b => rw [recvOp_of_bytes h1 h260 ha]; exact recvBytes_wf _ _ b (Memory.wf_store hw _ b)

theorem recvOp_frame_of_asked :
    recvOp s = { s with mem := (recvOp s).mem, rxcount := (recvOp s).rxcount, rplen := (recvOp s).rplen,
                        csumOk := (recvOp s).csumOk, echolen := 0, err := (recvOp s).err, env := s.env.afterRead } := by
  refine (recvOp_frame rfl).trans ?_
  rw [recvOp_echolen h1 h260, recvOp_env h1 h260]

/-- RECV writes the bytes that came to RXRAW and, where it succeeds, REPLEN bytes to REPLY, and nothing else. -/
theorem read_recvOp_of_ne {k : Nat} (hraw : ∀ i, i < (recvOp s).rxcount.toNat → k ≠ Buf.rxraw.elemAddr i)
    (hreply : (recvOp s).err = .ok → ∀ i, i < s.replen.toNat → k ≠ Buf.reply.elemAddr i) :
    (recvOp s).mem.read k = s.mem.read k := by
  cases ha : nextRead (s.echolen.toNat + s.replen.toNat) s with
  | ioError => rw [recvOp_of_ioError h1 h260 ha]; rfl
  | bytes b =>
    have hlen := nextRead_length ha
    rw [recvOp_of_bytes h1 h260 ha] at hraw hreply ⊢
    have hcame : (received b (asked s)).mem.read k = s.mem.read k := by
      refine read_storeIn_of_ne .rxraw b (asked s) k fun i hi => hraw i ?_
      rw [recvBytes_rxcount, received_rxcount, BitVec.toNat_ofNat]
      omega
    rcases recvBytes_mem s.echolen.toNat s.replen.toNat b (received b (asked s)) with hm | ⟨hok, hm⟩
    · rw [hm, hcame]
    · rw [hm, read_storeIn_of_ne .reply _ _ k fun i hi => hreply hok i (by rw [List.length_drop] at hi; omega), hcame]

end

/-- Settles O38: what RECV leaves alone, then its rows, one for each answer and each number of bytes that came. -/
theorem recvOutcomes : Obligations.RecvOutcomes := by
  refine ⟨fun s hw h1 h260 => ⟨recvOp s, rfl, recvOp_frame_of_asked h1 h260, fun k => read_recvOp_of_ne h1 h260,
    fun herr => ((recvOp_ok_or_refused s).resolve_left herr).2, fun ha => ?_, fun b ha => ?_⟩,
    fun s hbad => congrArg Host.Outcome.next (recvOp_of_not_asked hbad)⟩
  · rw [recvOp_of_ioError h1 h260 ha]
    exact ⟨rfl, rfl, rfl, rfl⟩
  · have hlen := nextRead_length ha
    have hdrop : (b.drop s.echolen.toNat).length = b.length - s.echolen.toNat := List.length_drop
    rw [recvOp_of_bytes h1 h260 ha]
    refine ⟨?_, ?_, fun hnone => ?_, fun hpos hshort => ?_, fun hfull hbad => ?_, fun hfull hgood => ?_⟩
    · rw [recvBytes_rxcount, received_rxcount, BitVec.toNat_ofNat]
      omega
    · rw [recvBytes_raw]
      exact raw_received (by omega) hw
    · rw [recvBytes_of_none hnone]
      exact ⟨rfl, rfl, rfl⟩
    · rw [recvBytes_of_short hpos hshort]
      exact ⟨rfl, rfl, rfl⟩
    · rw [recvBytes_of_bad (by omega) hfull.ge hbad]
      exact ⟨rfl, rfl, rfl⟩
    · have hfit : (b.drop s.echolen.toNat).length ≤ Config.maxRx := by
        simp only [Config.maxRx]
        omega
      rw [recvBytes_of_good (by omega) hfull.ge hgood]
      exact ⟨rfl, (rplen_replied hfit _).trans (by omega), rfl, replyBytes_replied hfit (Memory.wf_store hw _ b)⟩

/-! SEND and RECV in turn (rules R184, R185, R189; decision D29). -/

/-- A RECV whose next scripted answer is the echo it expects and a good reply delivers the reply (rule R184). -/
theorem recvOp_of_echo_and_good_reply {s : State} {e y : List Byte} {rest : List ReadAnswer} (hw : s.mem.wf = true)
    (h1 : 1 ≤ s.replen.toNat) (h260 : s.replen.toNat ≤ 260) (hreads : s.env.reads = .bytes (e ++ y) :: rest)
    (he : e.length = s.echolen.toNat) (hy : y.length = s.replen.toNat) (hgood : csumOk y = true) :
    (recvOp s).err = .ok ∧ (recvOp s).replyBytes = y ∧ (recvOp s).raw = e ++ y := by
  have hlen : (e ++ y).length = s.echolen.toNat + s.replen.toNat := by rw [List.length_append, he, hy]
  have hdrop : (e ++ y).drop s.echolen.toNat = y := he ▸ List.drop_left
  obtain ⟨u, hx, -, -, -, -, hrows⟩ := recvOutcomes.1 s hw h1 h260
  obtain rfl : recvOp s = u := Host.Outcome.next.inj hx
  obtain ⟨-, hraw, -, -, -, hsuccess⟩ := hrows _ (nextRead_script hreads hlen.le)
  obtain ⟨hok, -, -, hreply⟩ := hsuccess hlen (hdrop.symm ▸ hgood)
  exact ⟨hok, hreply.trans hdrop, hraw⟩

theorem reads_afterRead {e : Env} {a : ReadAnswer} {rest : List ReadAnswer} (h : e.reads = a :: rest) :
    e.afterRead.reads = rest := by
  rw [Env.afterRead, h]

/-- Settles O39: SEND sets ECHOLEN to TXLEN and the first RECV clears it, so the second finds an echo of no byte. -/
theorem echoIsStrippedOnce : Obligations.EchoIsStrippedOnce := by
  intro s t e y z rest hw hx hok h1 h260 hreads he hy hz hygood hzgood
  obtain rfl : sendOp s = t := Host.Outcome.next.inj hx
  rw [sendOp_of_ok hok]
  have hreads1 : (sent s).env.reads = .bytes (e ++ y) :: .bytes z :: rest := (reads_afterWrite s.env).trans hreads
  have hreplen : (recvOp (sent s)).replen = s.replen := recvOp_replen (sent s)
  have hecho : (recvOp (sent s)).echolen = 0 := recvOp_echolen (s := sent s) h1 h260
  have hreads2 : (recvOp (sent s)).env.reads = .bytes ([] ++ z) :: rest := by
    rw [recvOp_env (s := sent s) h1 h260]
    exact reads_afterRead hreads1
  obtain ⟨hok1, hreply1, hraw1⟩ := recvOp_of_echo_and_good_reply (s := sent s) hw h1 h260 hreads1 he hy hygood
  obtain ⟨hok2, hreply2, hraw2⟩ := recvOp_of_echo_and_good_reply (recvOp_wf (s := sent s) h1 h260 hw)
    (hreplen ▸ h1) (hreplen ▸ h260) hreads2 (by rw [hecho]; rfl) (hreplen ▸ hz) hzgood
  exact ⟨_, _, rfl, hok1, hreply1, hraw1, hecho, rfl, hok2, hreply2, hraw2⟩

/-- RECV leaves the packet: the 511 elements that TXLEN can count end before RXRAW. -/
theorem packet_recvOp {s : State} (h1 : 1 ≤ s.replen.toNat) (h260 : s.replen.toNat ≤ 260) :
    (recvOp s).packet = s.packet := by
  rw [State.packet, State.packet, recvOp_txlen]
  refine Memory.load_congr fun j hj => read_recvOp_of_ne h1 h260 (fun i _ => ?_) (fun _ i _ => ?_)
  all_goals
    have hlt := s.txlen.isLt
    simp only [Buf.elemAddr, Buf.base]
    omega

/-- Settles O40: SEND leaves ECHOLEN at TXLEN, so the rows of RECV are those of the packet's echo and a reply. -/
theorem exchangeReturnsOnlyTheReply : Obligations.ExchangeReturnsOnlyTheReply := by
  intro s ws b rs hinv htx hecho h1 h260 hwrites hreads
  have hsend : exec .send s = .next (sent s) :=
    congrArg Host.Outcome.next (sendOp_of_taken hecho htx (nextWrite_script hwrites _))
  have hreads1 : (sent s).env.reads = .bytes b :: rs := (reads_afterWrite s.env).trans hreads
  obtain ⟨u, hx, -, -, -, -, hrows⟩ := recvOutcomes.1 (sent s) hinv.memWf h1 h260
  obtain rfl : recvOp (sent s) = u := Host.Outcome.next.inj hx
  have hrows_of_le (hle : b.length ≤ s.txlen.toNat + s.replen.toNat) := hrows b (nextRead_script hreads1 hle)
  refine ⟨_, _, hsend, rfl, rfl, recvOp_txlog (sent s), packet_recvOp (s := sent s) h1 h260,
    recvOp_txlen (sent s), recvOp_echolen (s := sent s) h1 h260, fun hnone => ?_, fun hpos hshort => ?_,
    fun e y hb he hy => ?_⟩
  · obtain ⟨-, -, hnoResponse, -⟩ := hrows_of_le (by simp [hnone])
    exact (hnoResponse (by simp [hnone])).1
  · obtain ⟨-, -, -, htruncated, -⟩ := hrows_of_le hshort.le
    exact (htruncated hpos hshort).1
  · have hlen : b.length = s.txlen.toNat + s.replen.toNat := by rw [hb, List.length_append, he, hy]
    have hdrop : b.drop s.txlen.toNat = y := by rw [hb, ← he, List.drop_left]
    obtain ⟨-, -, -, -, hmismatch, hsuccess⟩ := hrows_of_le hlen.le
    refine ⟨fun hgood => ?_, fun hbad => (hmismatch hlen (hdrop.symm ▸ hbad)).1⟩
    obtain ⟨hok, -, -, hreply⟩ := hsuccess hlen (hdrop.symm ▸ hgood)
    exact ⟨hok, hreply.trans hdrop⟩

/-- A RECV that succeeds read all it asked for, and RXRAW holds it (rule R183). -/
theorem nextRead_of_recvOp_ok {s : State} (hw : s.mem.wf = true) (h1 : 1 ≤ s.replen.toNat)
    (h260 : s.replen.toNat ≤ 260) (hok : (recvOp s).err = .ok) :
    nextRead (s.echolen.toNat + s.replen.toNat) s = .bytes (recvOp s).raw ∧
    (recvOp s).raw.length = s.echolen.toNat + s.replen.toNat := by
  cases ha : nextRead (s.echolen.toNat + s.replen.toNat) s with
  | ioError =>
    rw [recvOp_of_ioError h1 h260 ha] at hok
    cases hok
  | bytes b =>
    have hle := nextRead_length ha
    have hraw : (recvOp s).raw = b := by
      rw [recvOp_of_bytes h1 h260 ha, recvBytes_raw]
      exact raw_received (by omega) hw
    rw [recvOp_of_bytes h1 h260 ha] at hok
    rw [hraw]
    exact ⟨rfl, hle.antisymm (le_length_of_recvBytes_ok hok)⟩

/-- Settles O41: the premise says that the echo is the end of TXLOG, which is the packet sent. -/
theorem faithfulEchoIsThePacketSent : Obligations.FaithfulEchoIsThePacketSent := by
  intro s t old f hw hfaithful hlog hecho h1 h260 hx hok
  obtain rfl : recvOp s = t := Host.Outcome.next.inj hx
  obtain ⟨ha, hlen⟩ := nextRead_of_recvOp_ok hw h1 h260 hok
  have hlast : s.txlog.drop (s.txlog.length - f.length) = f := by
    rw [hlog, List.length_append, Nat.add_sub_cancel, List.drop_left]
  have hfits : f.length ≤ (recvOp s).raw.length := by omega
  calc (recvOp s).raw.take f.length
      = (s.txlog.drop (s.txlog.length - f.length)).take (recvOp s).raw.length := hecho ▸ hfaithful _ ha
    _ = f := by rw [hlast, List.take_of_length_le hfits]

/-! NOP (rule R186). -/

/-- Settles O42: NOP is `finish`. -/
theorem nopOnlyClearsErr : Obligations.NopOnlyClearsErr := fun _ => rfl

end Sys2Proof.Machine
end

section
/-! What stops the machine, and what a write to CMD reports (rules R214, R216, R218). -/

namespace Sys2Proof.Machine

/-! A host write to CMD. Every operation, and an illegal word, gives ERR a value of its own, so a HandshakeFailed
in the state before is gone after. -/

theorem encOp_err_ne_handshakeFailed (c : Command) (s : State) : (encOp c s).err ≠ .handshakeFailed := by
  rcases encOp_cases c s with h | ⟨c', -, h⟩ <;> rw [h] <;> exact nofun

theorem frameOp_err_ne_handshakeFailed (s : State) : (frameOp s).err ≠ .handshakeFailed := by
  rcases frameOp_cases s with ⟨-, h⟩ | ⟨-, h⟩ <;> rw [h] <;> exact nofun

theorem parseOp_err_ne_handshakeFailed (s : State) : (parseOp s).err ≠ .handshakeFailed := by
  rcases parseOp_cases s with ⟨-, h⟩ | ⟨-, -, h⟩ | ⟨-, -, h⟩ <;> rw [h] <;> exact nofun

theorem verifyOp_err_ne_handshakeFailed (f : List Byte) (s : State) : (verifyOp f s).err ≠ .handshakeFailed := by
  rcases verifyOp_cases f s with ⟨-, h⟩ | ⟨-, h⟩ <;> rw [h] <;> exact nofun

theorem sendOp_err_ne_handshakeFailed (s : State) : (sendOp s).err ≠ .handshakeFailed := by
  rcases sendOp_cases s with ⟨-, h⟩ | ⟨-, -, h⟩ | ⟨-, -, -, h⟩ | ⟨-, -, n, -, h⟩ <;> rw [h] <;> exact nofun

theorem recvBytes_err_ne_handshakeFailed (e n : Nat) (b : List Byte) (s : State) :
    (recvBytes e n b s).err ≠ .handshakeFailed := by
  rcases recvBytes_cases e n b s with ⟨-, h⟩ | ⟨-, -, h⟩ | ⟨-, -, -, h⟩ | ⟨-, -, -, h⟩ <;> rw [h] <;> exact nofun

theorem recvOp_err_ne_handshakeFailed (s : State) : (recvOp s).err ≠ .handshakeFailed := by
  rcases recvOp_cases s with ⟨-, h⟩ | ⟨-, -, ⟨-, h⟩ | ⟨b, -, -, h⟩⟩ <;> rw [h]
  · exact nofun
  · exact nofun
  · exact recvBytes_err_ne_handshakeFailed _ _ b _

/-- An instruction whose code is an operation word never reports HandshakeFailed; the others are the wire rows,
which leave ERR alone. -/
theorem exec_err_ne_handshakeFailed {i : Instr} {w : Word} (hi : encode i = .opWord w) {s t : State}
    (h : exec i s = .next t) : t.err ≠ .handshakeFailed := by
  cases i with
  | nop => exact Host.Outcome.next.inj h ▸ nofun
  | frame => exact Host.Outcome.next.inj h ▸ frameOp_err_ne_handshakeFailed s
  | encRdblk => exact Host.Outcome.next.inj h ▸ encOp_err_ne_handshakeFailed (.readBlock 0 0) s
  | encRdaddr => exact Host.Outcome.next.inj h ▸ encOp_err_ne_handshakeFailed (.readSingleAddresses []) s
  | encWrblk => exact Host.Outcome.next.inj h ▸ encOp_err_ne_handshakeFailed (.writeBlock 0 []) s
  | encWraddr => exact Host.Outcome.next.inj h ▸ encOp_err_ne_handshakeFailed (.writeSingleAddress 0 0) s
  | encInit => exact Host.Outcome.next.inj h ▸ encOp_err_ne_handshakeFailed .initRequest s
  | parse => exact Host.Outcome.next.inj h ▸ parseOp_err_ne_handshakeFailed s
  | verifyRx => exact Host.Outcome.next.inj h ▸ verifyOp_err_ne_handshakeFailed s.replyBytes s
  | verifyTx => exact Host.Outcome.next.inj h ▸ verifyOp_err_ne_handshakeFailed s.packet s
  | send => exact Host.Outcome.next.inj h ▸ sendOp_err_ne_handshakeFailed s
  | recv => exact Host.Outcome.next.inj h ▸ recvOp_err_ne_handshakeFailed s
  | _ => cases hi

/-- Settles O15: an illegal word raises IllegalOperation, and any other word is the code of the operation it
selects. -/
theorem everyCmdWriteCompletes : Obligations.EveryCmdWriteCompletes := by
  intro s w rest hp
  cases hd : decode (.opWord w) with
  | error e => exact ⟨_, step_of_decode_error hp hd, nofun⟩
  | ok i =>
    obtain ⟨-, hcode⟩ := acceptedCodesAreEncodings _ _ hd
    obtain ⟨t, ht⟩ := exec_next i (s.continueAt rest)
    exact ⟨t, (stepRunsTheDecodedInstruction s _ i rest hp hd).trans ht, exec_err_ne_handshakeFailed hcode ht⟩

/-! What stops the machine (rules R62, R216). -/

/-- Only a host access comes to a fault. -/
theorem access_of_runLine_fault {l : Line} {s : State} {f : Fault} (h : runLine l s = .fault f) :
    (∃ off width, l = .rd off width) ∨ ∃ off width w, l = .wr off width w := by
  cases l with
  | rd off width => exact .inl ⟨off, width, rfl⟩
  | wr off width w => exact .inr ⟨off, width, w, rfl⟩
  | wire bs => exact absurd h (issue_ne_fault _ s f)
  | _ => cases h

/-- The step faults exactly at an access that is not admitted. -/
theorem step_fault_iff (s : State) : (∃ f, step s = .fault f) ↔ s.AtNotAdmittedAccess := by
  obtain ⟨hread, hwrite⟩ := onlyNotAdmittedAccessesStop
  constructor
  · rintro ⟨f, hf⟩
    cases hp : s.host.pending with
    | nil =>
      rw [step_of_idle hp] at hf
      cases hf
    | cons l rest =>
      have hline := hf
      rw [step_of_pending hp, carryOut_eq_fault_iff] at hline
      rcases access_of_runLine_fault hline with ⟨off, width, rfl⟩ | ⟨off, width, w, rfl⟩
      · obtain ⟨hfault, -⟩ := hread s off width rest hp
        exact .inl ⟨off, width, rest, hp, hfault.1 ⟨f, hf⟩⟩
      · obtain ⟨hfault, -⟩ := hwrite s off width w rest hp
        exact .inr ⟨off, width, w, rest, hp, hfault.1 ⟨f, hf⟩⟩
  · rintro (⟨off, width, rest, hp, hbad⟩ | ⟨off, width, w, rest, hp, hbad⟩)
    · obtain ⟨hfault, -⟩ := hread s off width rest hp
      exact hfault.2 hbad
    · obtain ⟨hfault, -⟩ := hwrite s off width w rest hp
      exact hfault.2 hbad

/-- Settles O51: no step is refused, and `step_fault_iff` says which are faults. -/
theorem nothingStopsButANotAdmittedAccess : Obligations.NothingStopsButANotAdmittedAccess :=
  ⟨exec_next, fun s => (step_fault_iff s).2,
    fun s hs => (step_fault_or_next s).resolve_left fun hf => hs ((step_fault_iff s).1 hf)⟩

end Sys2Proof.Machine
end

section
/-! Reset (rules R240 to R242): what a reset step leaves, and what each operation does in the state after it. -/

namespace Sys2Proof.Machine

/-- Reset leaves the buffers' storage empty, and a byte that is not listed reads 0. -/
theorem readElem_blockReset (b : Buf) (i : Nat) (s : State) : readElem b i (blockReset s) = 0 := by
  cases b with
  | alist => exact (by decide : (Memory.readAddress [] 0).setWidth 32 = (0 : Word))
  | _ => exact congrArg (BitVec.setWidth 32) (Memory.read_nil _)

/-- ERR, CSUM_OK and ECHOLEN are 0 after reset, and STATUS is made of them. -/
theorem statusWord_blockReset (s : State) : (blockReset s).statusWord = 0 :=
  (by decide : State.reset.statusWord = 0)

/-- Settles O1: the step is `blockReset`, whose registers are those of `State.reset`. -/
theorem resetStepGivesResetValues : Obligations.ResetStepGivesResetValues := by
  intro s rest hp
  refine ⟨blockReset (s.continueAt rest), step_of_pending hp, ?_⟩
  exact ⟨statusWord_blockReset _, rfl, rfl, rfl, rfl, rfl, rfl, rfl, rfl, rfl, rfl, rfl, rfl, rfl, rfl, rfl, rfl, rfl,
    fun b i _ => readElem_blockReset b i _, rfl, rfl⟩

/-- Right after reset there is no raw response and no echo to strip, so PARSE delivers a reply of no byte. -/
theorem exec_parse_reset : exec .parse State.reset = .next State.reset :=
  exec_parse_of_reqlen_le (s := State.reset) (by decide) (by decide)

/-- Settles O2: every length register is 0 after reset, so each operation is at its own rule's case for that; the
two ENC operations that test no operand encode zeros. -/
theorem operationsAfterReset : Obligations.OperationsAfterReset := by
  obtain ⟨-, hrx, hnoReply, -, htx, hnoPacket⟩ := verifyReportsTheCheck State.reset
  obtain ⟨⟨t, hwraddr, htcommand, -, -, ht⟩, u, hinit, hucommand, -, -, hu⟩ := encWraddrAndInitEncode State.reset rfl
  exact ⟨exec_frame_of_no_command rfl,
    congrArg Host.Outcome.next (sendOp_of_idle rfl rfl),
    congrArg Host.Outcome.next (recvOp_of_not_asked (.inl rfl)),
    encRdblkEncodesReadBlock.2 State.reset (.inl rfl),
    encRdaddrEncodesReadSingleAddresses.2 State.reset (.inl rfl),
    encWrblkEncodesWriteBlock.2 State.reset (.inl rfl),
    hrx (hnoReply rfl),
    htx (hnoPacket rfl),
    exec_parse_reset,
    nopOnlyClearsErr State.reset,
    ⟨t, hwraddr, ht ▸ rfl, htcommand⟩,
    ⟨u, hinit, hu ▸ rfl, hucommand⟩⟩

end Sys2Proof.Machine
end
